-- ==== Sys2Proof/Word.lean ====
section
/-! DEFINITION. The word types of the machine (00_scope.md R6, R7). -/

namespace Sys2Proof

/-- `u8`: the width of A, B, a memory byte and the ALU (R6 `DATA_WIDTH`). -/
abbrev Byte := BitVec 8

/-- `u16`: the width of AR and of `imm16` (R6 `AR_WIDTH`). -/
abbrev AddrWord := BitVec 16

/-- `u32`: the width of the program counter (R6 `PC_WIDTH`, decision D2). -/
abbrev PcWord := BitVec 32

end Sys2Proof
end

