-- ==== Sys2Proof/Config.lean ====
section
/-! DEFINITION. The implementation parameters (00_scope.md R6). Every one is fixed by the spec, and the
spec leaves no result free, so this file holds no constant without a body. -/

namespace Sys2Proof.Config

/-- `MEM_SIZE`: the memory bank is addresses 0 to 2047 (R6, R31). -/
def memSize : Nat := 2048

/-- `MAX_IMAGE`: the largest image `construct` accepts (R6, R113). -/
def maxImage : Nat := 2048

/-- What memory holds beyond the image: "zero-fills the remainder" (R29, R112). -/
def fillByte : Byte := 0

end Sys2Proof.Config
end

