-- ==== Sys2Proof/Syntax.lean ====
section
/-! DEFINITION. The instructions, one constructor per row of opcode_table.json (30_encoding.md R58), and the
written form of R64. Register operands are implied by the opcode (R54), so only LDI and LDAR carry an operand. -/

namespace Sys2Proof

/-- A decoded instruction. An operand has the width of its register, so no operand is out of range (R55, R60). -/
inductive Instr where
  /-- no-op, R74 -/
  | nop
  /-- add, R75 -/
  | add
  /-- subtract, R76 -/
  | sub
  /-- load-immediate-A, R79 -/
  | ldi (imm8 : Byte)
  /-- load-immediate-address, R80 -/
  | ldar (imm16 : AddrWord)
  /-- fetch-byte, R82 -/
  | ldm
  /-- fetch-address, R83 -/
  | ldmar
  /-- write-byte, R84 -/
  | stm
  /-- copy-A-to-B, R85 -/
  | tab
  /-- copy-B-to-A, R86 -/
  | tba
  /-- jump, R88 -/
  | jmp
  /-- jump-if-zero, R89 -/
  | jz
  /-- jump-if-carry, R90 -/
  | jc
  /-- halt, R92 -/
  | hlt
  deriving DecidableEq, Repr

/-- The mnemonics of R58 (decision D10). -/
inductive Mnemonic where
  | NOP | ADD | SUB | LDI | LDAR | LDM | LDMAR | STM | TAB | TBA | JMP | JZ | JC | HLT
  deriving DecidableEq, Repr

/-- An operand as written in assembly (R64): `#n`, or `#label`. A label's name is a number here, since only which
names are equal matters. -/
inductive AsmOperand where
  | num (n : Nat)
  | label (name : Nat)
  deriving DecidableEq, Repr

/-- One written instruction (R64): a mnemonic and perhaps an operand. -/
structure AsmInstr where
  mnemonic : Mnemonic
  operand : Option AsmOperand
  deriving DecidableEq, Repr

/-- One line of an assembly text (R64), comments and number bases aside. -/
inductive AsmLine where
  | instr (i : AsmInstr)
  /-- `label:` -/
  | label (name : Nat)
  /-- `.org n` -/
  | org (n : Nat)
  /-- `.byte b, b, ...` -/
  | byte (bs : List Nat)
  /-- `.word w` -/
  | word (w : Nat)
  deriving DecidableEq, Repr

end Sys2Proof
end

