-- ==== Sys2Proof/WellFormed.lean ====
section
/-! DEFINITION. Well-formedness: of an instruction (30_encoding.md R55, R60) and of its written form (R64). -/

namespace Sys2Proof

/-- An instruction's operand is in the range of its field. R60: "Operand bytes are never checked", every `imm8` and
every `imm16` is legal; the operand types already say so, and `Laws.wellFormed_all` shows that no instruction fails. -/
def Instr.wellFormed : Instr → Bool
  | .ldi imm8 => decide (imm8.toNat ≤ 255)
  | .ldar imm16 => decide (imm16.toNat ≤ 65535)
  | .nop | .add | .sub | .ldm | .ldmar | .stm | .tab | .tba | .jmp | .jz | .jc | .hlt => true

/-- R64: "LDI takes one operand `#n` with `0 <= n <= 255`. LDAR takes one operand `#n` with `0 <= n <= 65535`, or
`#label`. No other instruction takes an operand." -/
def AsmInstr.wellFormed (i : AsmInstr) : Bool :=
  match i.mnemonic, i.operand with
  | .LDI, some (.num n) => decide (n ≤ 255)
  | .LDI, _ => false
  | .LDAR, some (.num n) => decide (n ≤ 65535)
  | .LDAR, some (.label _) => true
  | .LDAR, none => false
  | _, none => true
  | _, some _ => false

/-- R64: what `.byte` places are bytes, and what `.word` places is a u16. -/
def AsmLine.wellFormed : AsmLine → Bool
  | .instr i => i.wellFormed
  | .label _ => true
  | .org _ => true
  | .byte bs => bs.all fun b => decide (b ≤ 255)
  | .word w => decide (w ≤ 65535)

end Sys2Proof
end

