-- ==== Sys2Proof/Decode.lean ====
section
/-! DEFINITION. The decoder (30_encoding.md section 5) and, after it, the encoder (section 1). The decoder reads bytes
through a reader, `byteAt k` being the byte `k` places after the opcode, and none where memory has none: the same
decoder runs over memory and over a list of bytes. -/

namespace Sys2Proof

/-- The three causes of a DecodeError (R63); IllegalOpcode records the byte (R59). -/
inductive DecodeCause where
  | pcOutOfBounds
  | illegalOpcode (opcode : Byte)
  | operandOutOfBounds
  deriving DecidableEq, Repr

/-- `le16(lo, hi) = hi ++ lo`, which is `lo + 256 * hi` (R8, R37). PRESUMED, unsafe: R37 gives the arithmetic from
general knowledge (log 6). -/
def le16 (lo hi : Byte) : AddrWord := hi ++ lo

/-- `FetchByte(a, cause)` (R56): the decoder's only read. -/
def fetchByte (byteAt : Nat → Option Byte) (k : Nat) (cause : DecodeCause) : Except DecodeCause Byte :=
  match byteAt k with
  | some b => .ok b
  | none => .error cause

/-- LDI's operand (R55, R61): the byte after the opcode, used unchanged. -/
def decodeLdi (byteAt : Nat → Option Byte) : Except DecodeCause Instr :=
  match fetchByte byteAt 1 .operandOutOfBounds with
  | .error e => .error e
  | .ok imm8 => .ok (.ldi imm8)

/-- LDAR's operand (R55, R61): the low byte first, then the high byte. -/
def decodeLdar (byteAt : Nat → Option Byte) : Except DecodeCause Instr :=
  match fetchByte byteAt 1 .operandOutOfBounds with
  | .error e => .error e
  | .ok lo =>
    match fetchByte byteAt 2 .operandOutOfBounds with
    | .error e => .error e
    | .ok hi => .ok (.ldar (le16 lo hi))

/-- The case on the opcode byte (R58, R61); every other byte is IllegalOpcode (R59). -/
def decodeOpcode (byteAt : Nat → Option Byte) (op : Byte) : Except DecodeCause Instr :=
  match op with
  | 0x00 => .ok .nop
  | 0x01 => .ok .add
  | 0x02 => .ok .sub
  | 0x03 => decodeLdi byteAt
  | 0x04 => decodeLdar byteAt
  | 0x05 => .ok .ldm
  | 0x06 => .ok .ldmar
  | 0x07 => .ok .stm
  | 0x08 => .ok .tab
  | 0x09 => .ok .tba
  | 0x0A => .ok .jmp
  | 0x0B => .ok .jz
  | 0x0C => .ok .jc
  | 0xFF => .ok .hlt
  | other => .error (.illegalOpcode other)

/-- `decode` (R61): the opcode byte with cause PcOutOfBounds, then its legality, then its operands (D9). -/
def decodeWith (byteAt : Nat → Option Byte) : Except DecodeCause Instr :=
  match fetchByte byteAt 0 .pcOutOfBounds with
  | .error e => .error e
  | .ok op => decodeOpcode byteAt op

/-- The decoder over a list of bytes, the first at the lowest address. -/
def decodeBytes (bs : List Byte) : Except DecodeCause Instr := decodeWith fun k => bs[k]?

/-- An instruction's encoded length (R52, R57). -/
def Instr.len : Instr → Nat
  | .ldi _ => 2
  | .ldar _ => 3
  | .nop | .add | .sub | .ldm | .ldmar | .stm | .tab | .tba | .jmp | .jz | .jc | .hlt => 1

/-- An instruction's opcode byte (R58). -/
def Instr.opcode : Instr → Byte
  | .nop => 0x00
  | .add => 0x01
  | .sub => 0x02
  | .ldi _ => 0x03
  | .ldar _ => 0x04
  | .ldm => 0x05
  | .ldmar => 0x06
  | .stm => 0x07
  | .tab => 0x08
  | .tba => 0x09
  | .jmp => 0x0A
  | .jz => 0x0B
  | .jc => 0x0C
  | .hlt => 0xFF

/-- The operand bytes after the opcode (R52, R53): none, `imm8`, or `imm16` low byte first. -/
def Instr.operandBytes : Instr → List Byte
  | .ldi imm8 => [imm8]
  | .ldar imm16 => [imm16.extractLsb' 0 8, imm16.extractLsb' 8 8]
  | .nop | .add | .sub | .ldm | .ldmar | .stm | .tab | .tba | .jmp | .jz | .jc | .hlt => []

/-- The encoder: an instruction's bytes at increasing addresses (R52, R53). -/
def encode (i : Instr) : List Byte := i.opcode :: i.operandBytes

/-- The three bytes that hold the low `nbits` bits of `w`, bits 7 to 0 in the first byte: the longest instruction has
three bytes, and every bit above `nbits` is zero. -/
def tableBytes (nbits w : Nat) : List Byte :=
  let v := w % 2 ^ nbits
  [BitVec.ofNat 8 v, BitVec.ofNat 8 (v / 256), BitVec.ofNat 8 (v / 65536)]

/-- The instruction the decoder reads from a row of opcode_table.json, its bits given as the number `w`. -/
def decodeTableWord (nbits w : Nat) : Option Instr :=
  match decodeBytes (tableBytes nbits w) with
  | .ok i => some i
  | .error _ => none

end Sys2Proof
end

