-- ==== Sys2Proof/Machine/State.lean ====
section
/-! DEFINITION. The architectural state (10_state.md R12), the errors a step can raise (60_exceptions.md R93 to R96)
and the state after reset (10_state.md R29). -/

namespace Sys2Proof.Machine

/-- The memory bank (R31) as cells, addresses strictly rising, no cell equal to what an unlisted address holds
(`Config.fillByte`). `Memory.wf` is this form. DEDUCED, safe: a representation of the 2048 bytes (log 5). -/
abbrev Memory := List Host.Cell

/-- Whether every address of the cells is at least `lo` and below the bank's end, the addresses strictly rise, and no
byte is the fill byte. -/
def Memory.wfFrom : Nat → List Host.Cell → Bool
  | _, [] => true
  | lo, (a, v) :: rest =>
    decide (lo ≤ a) && decide (a < Config.memSize) && decide (v ≠ Config.fillByte) && Memory.wfFrom (a + 1) rest

/-- The canonical form of the memory list: equal memories are equal lists. -/
def Memory.wf (m : Memory) : Bool := Memory.wfFrom 0 m

/-- The run status (R26). -/
inductive Status where
  | running
  | halted
  | faulted
  deriving DecidableEq, Repr

/-- The two errors that put the core into Faulted, with what each records (R93, R96, decision D5). -/
inductive RunError where
  /-- raised by the decoder, in any step (R94) -/
  | decodeError (cause : DecodeCause)
  /-- raised by LDM, LDMAR and STM (R97); `addr` is the first out-of-bounds byte address, formed exactly (R40) -/
  | memoryAccessError (addr : Nat)
  deriving DecidableEq, Repr

/-- The fault record (R27, R96): the error and the pc of the failed step. -/
structure FaultRecord where
  error : RunError
  pc : PcWord
  deriving DecidableEq, Repr

/-- The whole architectural state (R12). -/
structure State where
  /-- register A (R13) -/
  a : Byte
  /-- register B (R14) -/
  b : Byte
  /-- the address register AR (R22) -/
  ar : AddrWord
  /-- the carry flag C (R24) -/
  c : Bool
  /-- the program counter (R17) -/
  pc : PcWord
  /-- the memory bank (R31) -/
  mem : Memory
  /-- the run status (R26) -/
  status : Status
  /-- the fault record (R27) -/
  fault : Option FaultRecord
  deriving DecidableEq, Repr

/-- Why a step has no next state. -/
inductive Fault where
  /-- InvalidStateError (R98): raised by `step` alone, while the status is Halted or Faulted; the state is unchanged.
  DEDUCED, safe: the core runs nothing in these states either (log 3). -/
  | invalidState
  deriving DecidableEq, Repr

/-- Why the model gives an instruction no meaning. -/
inductive Refusal where
  /-- Raised by an arm of `exec` without a meaning; every arm has one, so nothing raises it. Safe. -/
  | notModelled (mnemonic : String)
  deriving DecidableEq, Repr

/-- DEDUCED, safe (log 4): the machine right after `construct` from the empty image (R29, R112, R113): every element zero, memory all zeros,
status Running, no fault. -/
def State.reset : State :=
  { a := 0, b := 0, ar := 0, c := false, pc := 0, mem := [], status := .running, fault := none }

end Sys2Proof.Machine
end

