-- ==== Sys2Proof/Machine/Ops.lean ====
section
/-! DEFINITION. The named operations over memory and registers (20_memory.md section 4), the instruction fetch
(30_encoding.md R56) and fault entry (60_exceptions.md R95). There is no return from a fault (R102). -/

namespace Sys2Proof.Machine

/-! ## The memory list -/

/-- The byte held at an address; an unlisted address holds the fill byte (R112). -/
def Memory.get : Memory → Nat → Byte
  | [], _ => Config.fillByte
  | (k, v) :: rest, x => if k = x then v else Memory.get rest x

/-- Put one cell in front of the cells, unless its byte is what an unlisted address holds. -/
def Memory.cons (x : Nat) (v : Byte) (rest : Memory) : Memory :=
  if v = Config.fillByte then rest else (x, v) :: rest

/-- The memory with one byte changed, in the canonical form. -/
def Memory.set : Memory → Nat → Byte → Memory
  | [], x, v => Memory.cons x v []
  | (k, w) :: rest, x, v =>
    if x < k then Memory.cons x v ((k, w) :: rest)
    else if x = k then Memory.cons x v rest
    else (k, w) :: Memory.set rest x v

/-- The cells of the bytes `bs` placed from address `x` upwards, in the canonical form. -/
def Memory.ofBytes : Nat → List Byte → Memory
  | _, [] => []
  | x, v :: rest => Memory.cons x v (Memory.ofBytes (x + 1) rest)

/-! ## The access primitives -/

/-- An address is in bounds when it is below MEM_SIZE (R33). -/
abbrev InBounds (x : Nat) : Prop := x < Config.memSize

/-- The byte at an address of the bank; none outside it. -/
def Memory.byteAt (m : Memory) (x : Nat) : Option Byte :=
  if InBounds x then some (m.get x) else none

/-- `MemRead(a, 1)` (R40). -/
def memReadByte (m : Memory) (x : Nat) : Except RunError Byte :=
  match m.byteAt x with
  | some v => .ok v
  | none => .error (.memoryAccessError x)

/-- `MemRead(a, 2)` (R40): both bytes are checked, `a` first, before a value is given; `a + 1` is exact. -/
def memReadPair (m : Memory) (x : Nat) : Except RunError AddrWord :=
  match memReadByte m x with
  | .error e => .error e
  | .ok lo =>
    match memReadByte m (x + 1) with
    | .error e => .error e
    | .ok hi => .ok (le16 lo hi)

/-- `MemWrite(a, 1, v)` (R41): the memory after the write. -/
def memWriteByte (m : Memory) (x : Nat) (v : Byte) : Except RunError Memory :=
  if InBounds x then .ok (m.set x v) else .error (.memoryAccessError x)

/-- A byte placed from outside the machine where the bank has that address; nothing changes elsewhere. -/
def Memory.place (m : Memory) (x : Nat) (v : Byte) : Memory :=
  if InBounds x then m.set x v else m

/-- Bytes placed from outside the machine at increasing addresses. -/
def Memory.placeBytes : Memory → Nat → List Byte → Memory
  | m, _, [] => m
  | m, x, v :: rest => Memory.placeBytes (m.place x v) (x + 1) rest

/-! ## Register writes -/

/-- `A <- v` (R9). -/
def State.setA (s : State) (v : Byte) : State := { s with a := v }

/-- `B <- v` (R9). -/
def State.setB (s : State) (v : Byte) : State := { s with b := v }

/-- `AR <- v` (R9). -/
def State.setAr (s : State) (v : AddrWord) : State := { s with ar := v }

/-- `C <- v` (R9). -/
def State.setC (s : State) (v : Bool) : State := { s with c := v }

/-- `pc <- target` (R9). -/
def State.setPc (s : State) (v : PcWord) : State := { s with pc := v }

/-- Memory replaced, at the step's end (R41, R69). -/
def State.setMem (s : State) (m : Memory) : State := { s with mem := m }

/-- `status <- v` (R9). -/
def State.setStatus (s : State) (v : Status) : State := { s with status := v }

/-- "PC advances by n" (R10). DEDUCED, safe: the register has 32 bits, and no step that advances it is near their end
(R21, log 1). -/
def State.advance (s : State) (n : Nat) : State := s.setPc (s.pc + BitVec.ofNat 32 n)

/-! ## Fault entry -/

/-- `raise E(info)` (R95): every write of the step is discarded, the status becomes Faulted, and the record holds the
error and the pc of the failed step (R96). DEDUCED, safe: the failed step is a next state (log 2). That nothing else
changes is decision D6 (log 10). -/
def State.raiseError (s : State) (e : RunError) : State :=
  { s with status := .faulted, fault := some { error := e, pc := s.pc } }

/-- The end of a meaning (R67, R69): either all of its writes, or fault entry from the state at the step's start. -/
def commit {α : Type} (s : State) (r : Except RunError α) (writes : α → State) :
    Host.Outcome State Fault Refusal :=
  match r with
  | .ok v => .next (writes v)
  | .error e => .next (s.raiseError e)

/-! ## Instruction fetch -/

/-- The instruction byte `k` places after the opcode (R36, R56); `pc + k` is exact (R33). -/
def State.instrByte (s : State) (k : Nat) : Option Byte := s.mem.byteAt (s.pc.toNat + k)

/-- `decode(mem, pc)` (R61). -/
def State.decodeAt (s : State) : Except DecodeCause Instr := decodeWith s.instrByte

/-! ## The fault record's fields (R96) -/

/-- The kinds of error that a record can hold. -/
inductive ErrorKind where
  | decodeError
  | memoryAccessError
  deriving DecidableEq, Repr

/-- `kind`. -/
def FaultRecord.kind (r : FaultRecord) : ErrorKind :=
  match r.error with
  | .decodeError _ => .decodeError
  | .memoryAccessError _ => .memoryAccessError

/-- `cause`, "for DecodeError". -/
def FaultRecord.cause (r : FaultRecord) : Option DecodeCause :=
  match r.error with
  | .decodeError c => some c
  | .memoryAccessError _ => none

/-- `opcode`, "the byte, for IllegalOpcode only". -/
def FaultRecord.opcode (r : FaultRecord) : Option Byte :=
  match r.error with
  | .decodeError (.illegalOpcode op) => some op
  | .decodeError .pcOutOfBounds | .decodeError .operandOutOfBounds | .memoryAccessError _ => none

/-- `addr`, "for MemoryAccessError only". -/
def FaultRecord.addr (r : FaultRecord) : Option Nat :=
  match r.error with
  | .memoryAccessError x => some x
  | .decodeError _ => none

/-- The source's Boolean `halted`, which "equals `status = Halted`" (R26). -/
def State.halted (s : State) : Bool := decide (s.status = .halted)

end Sys2Proof.Machine
end

