-- ==== Sys2Proof/Machine/Flags.lean ====
section
/-! DEFINITION. The ALU (40_nop_arithmetic.md R73): the 8-bit result and the carry-out. There is no carry-in. -/

namespace Sys2Proof.Machine

/-- `alu_add(a, b) = ((a + b) mod 256, (a + b) > 255)` (R73). -/
def aluAdd (x y : Byte) : Byte × Bool := (x + y, decide (x.toNat + y.toNat > 255))

/-- `alu_sub(a, b) = ((a - b) mod 256, a < b)` (R73). PRESUMED, unsafe: R73 gives the result from general knowledge
(log 7). -/
def aluSub (x y : Byte) : Byte × Bool := (x - y, decide (x.toNat < y.toNat))

/-- An ALU result written back: A takes the value and C the carry-out, always (R24, R73). -/
def State.writeAlu (s : State) (r : Byte × Bool) : State := (s.setA r.1).setC r.2

end Sys2Proof.Machine
end

