-- ==== Sys2Proof/Machine/Arith.lean ====
section
/-! DEFINITION. NOP, ADD, SUB (40_nop_arithmetic.md). -/

namespace Sys2Proof.Machine

/-- NOP (R74). -/
def execNop (s : State) : Host.Outcome State Fault Refusal :=
  .next (s.advance 1)

/-- ADD (R75). -/
def execAdd (s : State) : Host.Outcome State Fault Refusal :=
  .next ((s.writeAlu (aluAdd s.a s.b)).advance 1)

/-- SUB (R76). -/
def execSub (s : State) : Host.Outcome State Fault Refusal :=
  .next ((s.writeAlu (aluSub s.a s.b)).advance 1)

end Sys2Proof.Machine
end

