-- ==== Sys2Proof/Machine/Operands.lean ====
section
/-! DEFINITION. The operand forms. Register operands are implied by the opcode (30_encoding.md R54) and immediates come
decoded (R55); what is left is the one data addressing mode (42_indirect_memory.md R81) and the jump target
(44_control_transfer.md R87). -/

namespace Sys2Proof.Machine

/-- `ea = AR`, "taken unchanged with no offset, no index and no scaling" (R81). LDMAR's neighbour is `ea + 1`. -/
def effectiveAddress (s : State) : Nat := s.ar.toNat

/-- `target = zext_32(AR)` (R87). -/
def jumpTarget (s : State) : PcWord := s.ar.setWidth 32

/-- The next-pc selection of a jump (R68): the target if taken, else the sequential address. -/
def State.jumpIf (s : State) (taken : Bool) : State :=
  if taken then s.setPc (jumpTarget s) else s.advance 1

end Sys2Proof.Machine
end

