-- ==== Sys2Proof/Machine/Control.lean ====
section
/-! DEFINITION. JMP, JZ, JC (44_control_transfer.md). A target of 2048 or more is not checked here: the next fetch
faults (R87, decision D3). DEDUCED, unsafe: D3 is the spec's own choice (log 9). -/

namespace Sys2Proof.Machine

/-- JMP (R88). -/
def execJmp (s : State) : Host.Outcome State Fault Refusal :=
  .next (s.jumpIf true)

/-- JZ (R89): the test is on A itself, not on a flag. -/
def execJz (s : State) : Host.Outcome State Fault Refusal :=
  .next (s.jumpIf (decide (s.a = 0)))

/-- JC (R90): the test is on the stored carry (90_conflicts.md C3). -/
def execJc (s : State) : Host.Outcome State Fault Refusal :=
  .next (s.jumpIf s.c)

end Sys2Proof.Machine
end

