-- ==== Sys2Proof/Machine/Copy.lean ====
section
/-! DEFINITION. TAB, TBA (43_register_copy.md). -/

namespace Sys2Proof.Machine

/-- TAB (R85). -/
def execTab (s : State) : Host.Outcome State Fault Refusal :=
  .next ((s.setB s.a).advance 1)

/-- TBA (R86). -/
def execTba (s : State) : Host.Outcome State Fault Refusal :=
  .next ((s.setA s.b).advance 1)

end Sys2Proof.Machine
end

