-- ==== Sys2Proof/Machine/Halt.lean ====
section
/-! DEFINITION. HLT (45_halt.md). -/

namespace Sys2Proof.Machine

/-- HLT (R92): the pc still advances, exactly (U5). -/
def execHlt (s : State) : Host.Outcome State Fault Refusal :=
  .next ((s.setStatus .halted).advance 1)

end Sys2Proof.Machine
end

