-- ==== Sys2Proof/Machine/Immediate.lean ====
section
/-! DEFINITION. LDI, LDAR (41_immediate_loads.md). -/

namespace Sys2Proof.Machine

/-- LDI (R79). -/
def execLdi (imm8 : Byte) (s : State) : Host.Outcome State Fault Refusal :=
  .next ((s.setA imm8).advance 2)

/-- LDAR (R80). -/
def execLdar (imm16 : AddrWord) (s : State) : Host.Outcome State Fault Refusal :=
  .next ((s.setAr imm16).advance 3)

end Sys2Proof.Machine
end

