-- ==== Sys2Proof/Machine/Indirect.lean ====
section
/-! DEFINITION. LDM, LDMAR, STM (42_indirect_memory.md). -/

namespace Sys2Proof.Machine

/-- LDM (R82). -/
def execLdm (s : State) : Host.Outcome State Fault Refusal :=
  commit s (memReadByte s.mem (effectiveAddress s)) fun v => (s.setA v).advance 1

/-- LDMAR (R83). -/
def execLdmar (s : State) : Host.Outcome State Fault Refusal :=
  commit s (memReadPair s.mem (effectiveAddress s)) fun v => (s.setAr v).advance 1

/-- STM (R84). -/
def execStm (s : State) : Host.Outcome State Fault Refusal :=
  commit s (memWriteByte s.mem (effectiveAddress s) s.a) fun m => (s.setMem m).advance 1

end Sys2Proof.Machine
end

