-- ==== Sys2Proof/Machine/Dispatch.lean ====
section
/-! DEFINITION. `execute(instr, len)` of 30_encoding.md R66: one arm per instruction (R72). -/

namespace Sys2Proof.Machine

def exec (i : Instr) (s : State) : Host.Outcome State Fault Refusal :=
  match i with
  | .nop => Sys2Proof.Machine.execNop s
  | .add => Sys2Proof.Machine.execAdd s
  | .sub => Sys2Proof.Machine.execSub s
  | .ldi imm8 => Sys2Proof.Machine.execLdi imm8 s
  | .ldar imm16 => Sys2Proof.Machine.execLdar imm16 s
  | .ldm => Sys2Proof.Machine.execLdm s
  | .ldmar => Sys2Proof.Machine.execLdmar s
  | .stm => Sys2Proof.Machine.execStm s
  | .tab => Sys2Proof.Machine.execTab s
  | .tba => Sys2Proof.Machine.execTba s
  | .jmp => Sys2Proof.Machine.execJmp s
  | .jz => Sys2Proof.Machine.execJz s
  | .jc => Sys2Proof.Machine.execJc s
  | .hlt => Sys2Proof.Machine.execHlt s

end Sys2Proof.Machine
end

