-- ==== Sys2Proof/Machine/Cycle.lean ====
section
/-! DEFINITION. The execution cycle (30_encoding.md section 7). -/

namespace Sys2Proof.Machine

/-- `step(s)` of R66: InvalidStateError unless Running, before anything is read (R98, R100); then decode; then
execute. A decode error is fault entry (R95). DESIGN CHOICE, safe: the status check stands here and not in `exec`
(log 14). -/
def cycle (s : State) : Host.Outcome State Fault Refusal :=
  match s.status with
  | .running =>
    match s.decodeAt with
    | .ok i => exec i s
    | .error cause => .next (s.raiseError (.decodeError cause))
  | .halted => .fault .invalidState
  | .faulted => .fault .invalidState

/-- The state with an instruction's bytes placed where the next step fetches, at the pc and after it. -/
def placeAtPc (s : State) (bs : List Byte) : State :=
  s.setMem (s.mem.placeBytes s.pc.toNat bs)

end Sys2Proof.Machine
end

