-- ==== Sys2Proof/Machine/Construct.lean ====
section
/-! DEFINITION. Construction of a machine from an image (70_reset_and_hazards.md section 1): the only reset (R111). -/

namespace Sys2Proof.Machine

/-- LoadError (60_exceptions.md R99): no machine is produced. -/
inductive LoadError where
  | unreadable
  | tooLarge
  deriving DecidableEq, Repr

/-- `construct(img)` (R112). The image source is out of scope (R5): it is none where it cannot be read. DEDUCED,
safe (log 12). -/
def construct (source : Option (List Byte)) : Except LoadError State :=
  match source with
  | none => .error .unreadable
  | some img =>
    if img.length ≤ Config.maxImage then .ok { State.reset with mem := Memory.ofBytes 0 img }
    else .error .tooLarge

end Sys2Proof.Machine
end

