-- ==== Sys2Proof/Machine/HostInterface.lean ====
section
/-! DEFINITION. What the host sees of `step()` and `run()` (70_reset_and_hazards.md section 3): the state after, which
it may read whole (R123), and what the call returns. -/

namespace Sys2Proof.Machine

/-- The error a call of `step` returns (60_exceptions.md R93). LoadError belongs to `construct`. -/
inductive StepError where
  /-- DecodeError or MemoryAccessError, as recorded (R95, R96) -/
  | raised (r : FaultRecord)
  /-- InvalidStateError (R98) -/
  | invalidState
  deriving DecidableEq, Repr

/-- What a call returns. -/
inductive CallResult where
  | ok
  | error (e : StepError)
  /-- the model's own: an instruction without a meaning; no step gives it -/
  | refused (r : Refusal)
  deriving DecidableEq, Repr

/-- The return value that belongs to the state a step reached: the error that its fault entry recorded, else Ok. -/
def resultOf (t : State) : CallResult :=
  match t.status, t.fault with
  | .faulted, some r => .error (.raised r)
  | .faulted, none => .ok
  | .running, _ => .ok
  | .halted, _ => .ok

/-- `step()` as the host calls it (R66, R120): the state after and the return value. On InvalidStateError the state is
unchanged (R98). -/
def hostStep (s : State) : State × CallResult :=
  match step s with
  | .next t => (t, resultOf t)
  | .fault .invalidState => (s, .error .invalidState)
  | .refused r => (s, .refused r)

/-- `run()` followed for at most some number of steps: it has returned, or it is still running. -/
inductive RunProgress where
  | returned (s : State) (r : CallResult)
  | stillRunning (s : State)
  deriving DecidableEq, Repr

/-- `run()` (R121, decision D16), followed for at most `n` steps: `run` itself is not bounded (R122). DEDUCED, safe
(log 13). -/
def hostRun : Nat → State → RunProgress
  | 0, s => if s.status = .halted then .returned s .ok else .stillRunning s
  | n + 1, s =>
    if s.status = .halted then .returned s .ok
    else
      match hostStep s with
      | (t, .ok) => hostRun n t
      | (t, .error e) => .returned t (.error e)
      | (t, .refused r) => .returned t (.refused r)

/-- `run()` called at `s` returns `r` and leaves `t`. -/
def RunReturns (s t : State) (r : CallResult) : Prop := ∃ n, hostRun n s = .returned t r

/-- `run()` called at `s` never returns (R122, U8). -/
def RunDiverges (s : State) : Prop := ∀ n, ∃ t, hostRun n s = .stillRunning t

end Sys2Proof.Machine
end

