-- ==== Sys2Proof/Safety.lean ====
section
/-! DEFINITION. The terms that statements use: runs, reachable states, and the machine's invariant. -/

namespace Sys2Proof.Machine

/-- `Trace s us t`: steps lead from `s` to `t`, and `us` are the states they started from, in order. -/
inductive Trace : State → List State → State → Prop where
  | nil (s : State) : Trace s [] s
  | cons {s u t : State} {us : List State} : step s = .next u → Trace u us t → Trace s (s :: us) t

/-- The states that the core can be in: constructed from an image, then stepped (70_reset_and_hazards.md R119). -/
inductive Reachable : State → Prop where
  | constructed {source : Option (List Byte)} {s : State} : construct source = .ok s → Reachable s
  | stepped {s t : State} : Reachable s → step s = .next t → Reachable t

/-- The byte at the pc, as memory holds it. -/
def State.opcodeByte (s : State) : Byte := s.mem.get s.pc.toNat

/-- The core is Running and the opcode byte that the next step fetches is `op`. -/
abbrev State.FetchesOpcode (s : State) (op : Byte) : Prop :=
  s.status = .running ∧ s.pc.toNat < 2048 ∧ s.opcodeByte = op

/-- What a recorded error says about the state it was raised in, and so about the state it left
(60_exceptions.md R94, R97, R101). -/
def ErrorExplained (s : State) : RunError → Prop
  | .decodeError .pcOutOfBounds => 2048 ≤ s.pc.toNat
  | .decodeError (.illegalOpcode op) =>
    s.pc.toNat < 2048 ∧ s.opcodeByte = op ∧ 13 ≤ op.toNat ∧ op.toNat ≤ 254
  | .decodeError .operandOutOfBounds =>
    (s.opcodeByte = 0x03 ∧ s.pc.toNat = 2047) ∨
      (s.opcodeByte = 0x04 ∧ (s.pc.toNat = 2046 ∨ s.pc.toNat = 2047))
  | .memoryAccessError x =>
    s.pc.toNat < 2048 ∧
      (((s.opcodeByte = 0x05 ∨ s.opcodeByte = 0x06 ∨ s.opcodeByte = 0x07) ∧ 2048 ≤ s.ar.toNat ∧ x = s.ar.toNat) ∨
        (s.opcodeByte = 0x06 ∧ s.ar.toNat = 2047 ∧ x = 2048))

/-- The invariant of the core. -/
structure State.Inv (s : State) : Prop where
  /-- the memory list is in its canonical form and inside the bank -/
  memWf : s.mem.wf = true
  /-- "The largest value `pc` can reach is 65535" (R21) -/
  pcBound : s.pc.toNat ≤ 65535
  /-- there is a fault record exactly while the status is Faulted (R27) -/
  faultIff : s.status = .faulted ↔ s.fault.isSome = true
  /-- the record is of the state itself: its pc, and an error that this state explains (R96, R101) -/
  faultTrue : ∀ r, s.fault = some r → r.pc = s.pc ∧ ErrorExplained s r.error
  /-- a halted core stands right after a HLT (R92) -/
  haltedAfterHlt : s.status = .halted → 1 ≤ s.pc.toNat ∧ s.pc.toNat ≤ 2048 ∧ s.mem.get (s.pc.toNat - 1) = 0xFF

end Sys2Proof.Machine
end

