-- ==== Sys2Proof/Certificates/Slice0/Obligations.lean ====
section
/-! DEFINITION. The statements for the provers. A statement's docstring names what it rests on where that is not a
plain rule of the spec: a decision (D), a choice (log entry) or an inference the spec marks as its own. -/

open Sys2Proof Sys2Proof.Machine

/-! ## Encoding -/

/-- The decoder gives back every instruction that the encoder writes, whatever bytes follow. -/
def Obligations.DecodeAfterEncode : Prop :=
  ∀ (i : Instr) (rest : List Byte), i.wellFormed = true → decodeBytes (encode i ++ rest) = .ok i

/-- Every decoded instruction's encoding is the very bytes it was read from: no two byte strings mean one instruction. -/
def Obligations.EncodeAfterDecode : Prop :=
  ∀ (bs : List Byte) (i : Instr), decodeBytes bs = .ok i → encode i = bs.take i.len

/-- R59: the bytes 13 to 254 are the illegal ones, and the error records the byte. -/
def Obligations.IllegalOpcodesAreThirteenTo254 : Prop :=
  ∀ (byteAt : Nat → Option Byte) (op recorded : Byte), byteAt 0 = some op →
    (decodeWith byteAt = .error (.illegalOpcode recorded) ↔
      recorded = op ∧ 13 ≤ op.toNat ∧ op.toNat ≤ 254)

/-- R57: the opcode byte alone fixes the length, and an illegal opcode has none. -/
def Obligations.OpcodeAloneFixesLength : Prop :=
  (∀ (byteAt : Nat → Option Byte) (op : Byte) (i : Instr), byteAt 0 = some op → decodeWith byteAt = .ok i →
    i.opcode = op ∧ (op.toNat ≤ 12 ∨ op.toNat = 255) ∧
      i.len = if op.toNat = 3 then 2 else if op.toNat = 4 then 3 else 1) ∧
  (∀ (byteAt : Nat → Option Byte) (op : Byte), byteAt 0 = some op → (byteAt 1).isSome = true →
    (byteAt 2).isSome = true → (op.toNat ≤ 12 ∨ op.toNat = 255) → ∃ i, decodeWith byteAt = .ok i)

/-- R60: every operand byte is legal, and every operand value can be written. -/
def Obligations.EveryOperandByteIsLegal : Prop :=
  (∀ (v : Byte) (rest : List Byte), decodeBytes (0x03 :: v :: rest) = .ok (.ldi v)) ∧
  (∀ (lo hi : Byte) (rest : List Byte), ∃ v, decodeBytes (0x04 :: lo :: hi :: rest) = .ok (.ldar v)) ∧
  (∀ v : AddrWord, ∃ lo hi : Byte, ∀ rest : List Byte,
    decodeBytes (0x04 :: lo :: hi :: rest) = .ok (.ldar v))

/-- R35: both 16-bit values, LDAR's operand and what LDMAR reads, have the byte at the lower address as their low
byte, in every state. -/
def Obligations.SixteenBitValuesAreLittleEndian : Prop :=
  (∀ (lo hi : Byte) (rest : List Byte), ∃ v : AddrWord,
    decodeBytes (0x04 :: lo :: hi :: rest) = .ok (.ldar v) ∧
      v.extractLsb' 0 8 = lo ∧ v.extractLsb' 8 8 = hi) ∧
  (∀ s : State, s.ar.toNat + 1 < 2048 → ∃ t, exec .ldmar s = .next t ∧
    t.ar.extractLsb' 0 8 = s.mem.get s.ar.toNat ∧ t.ar.extractLsb' 8 8 = s.mem.get (s.ar.toNat + 1))

/-- R62: the decoder reads only the bytes of the instruction it decodes, so a one-byte instruction may be the last
byte of memory, and an operand byte past the end is the error OperandOutOfBounds. -/
def Obligations.DecoderReadsOnlyItsInstruction : Prop :=
  (∀ (r r' : Nat → Option Byte) (i : Instr), decodeWith r = .ok i → (∀ k, k < i.len → r' k = r k) →
    decodeWith r' = .ok i) ∧
  (∀ (s : State) (i : Instr), s.pc.toNat = 2047 → i.len = 1 → s.opcodeByte = i.opcode → s.decodeAt = .ok i) ∧
  (∀ s : State, s.decodeAt = .error .operandOutOfBounds ↔
    (s.opcodeByte = 0x03 ∧ s.pc.toNat = 2047) ∨
      (s.opcodeByte = 0x04 ∧ (s.pc.toNat = 2046 ∨ s.pc.toNat = 2047)))

/-- Words written out from R58 and R53 decode to what they stand for (a sanity statement). -/
def Obligations.WrittenWordsDecode : Prop :=
  decodeTableWord 8 0x01 = some .add ∧ decodeTableWord 8 0x07 = some .stm ∧ decodeTableWord 8 0x09 = some .tba ∧
  decodeTableWord 8 0x0C = some .jc ∧ decodeTableWord 8 0xFF = some .hlt ∧
  decodeTableWord 16 0x0503 = some (.ldi 5) ∧ decodeTableWord 24 0x123404 = some (.ldar 0x1234) ∧
  decodeTableWord 8 0x0D = none

/-! ## The step -/

/-- A Running core whose bytes at the pc decode to an instruction runs exactly that instruction; a decode error is
raised; in any other status nothing is read and InvalidStateError is returned (decisions D5, D6 and D7). -/
def Obligations.StepRunsDecodedInstruction : Prop :=
  (∀ (s : State) (i : Instr), s.status = .running → s.decodeAt = .ok i → i.wellFormed = true →
    step s = exec i s) ∧
  (∀ (s : State) (cause : DecodeCause), s.status = .running → s.decodeAt = .error cause →
    step s = .next (s.raiseError (.decodeError cause))) ∧
  (∀ s : State, s.status ≠ .running →
    step s = .fault .invalidState ∧ hostStep s = (s, .error .invalidState))

/-- Bytes placed by `withFetchWord` are what the next step runs (log 4: it stands for the loader). -/
def Obligations.PlacedWordRunsNext : Prop :=
  ∀ (s : State) (nbits w : Nat) (i : Instr), s.mem.wf = true → s.status = .running → s.pc.toNat + 2 < 2048 →
    decodeTableWord nbits w = some i →
    step (s.withFetchWord nbits w) = exec i (s.withFetchWord nbits w)

/-- A failed step changes nothing but the status and the fault record, the record holds the pc of the failed step, and
the host is returned that same error. Rests on decisions D5 and D6 (R95, R96). -/
def Obligations.FailedStepChangesOnlyStatusAndFault : Prop :=
  ∀ s t : State, step s = .next t → t.status = .faulted →
    ∃ e : RunError, t = { s with status := .faulted, fault := some { error := e, pc := s.pc } } ∧
      hostStep s = (t, .error (.raised { error := e, pc := s.pc }))

/-- The fields of a record that a failed step leaves: the pc of that step; a cause for DecodeError alone, an opcode for
IllegalOpcode alone, and it is the byte fetched; an address for MemoryAccessError alone, and it is out of bounds. Rests
on decision D5 (R96). -/
def Obligations.RecordFieldsMatchItsKind : Prop :=
  ∀ (s t : State) (r : FaultRecord), s.fault = none → step s = .next t → t.fault = some r →
    r.pc = s.pc ∧
    (r.kind = .decodeError ↔ ∃ cause, r.cause = some cause) ∧
    (r.kind = .memoryAccessError ↔ ∃ x, r.addr = some x) ∧
    (∀ op, r.opcode = some op ↔ r.cause = some (.illegalOpcode op)) ∧
    (∀ op, r.opcode = some op → op = s.opcodeByte) ∧
    (∀ x, r.addr = some x → 2048 ≤ x ∧ (x = s.ar.toNat ∨ x = s.ar.toNat + 1))

/-- A Running core raises an error exactly where the spec's conditions hold, that error and no other; elsewhere its
step succeeds. Rests on decisions D4, D5, D6 and D9 (R94, R97, R100). -/
def Obligations.ErrorsAreExactlyTheSpecs : Prop :=
  ∀ s : State, s.status = .running →
    (∀ e : RunError, ErrorExplained s e →
      step s = .next { s with status := .faulted, fault := some { error := e, pc := s.pc } }) ∧
    ((∀ e : RunError, ¬ ErrorExplained s e) → ∃ t, step s = .next t ∧ t.status ≠ .faulted)

/-- A step answers a next state in status Running, InvalidStateError in the other two, and is never refused: no opcode
byte is left without semantics. -/
def Obligations.StepAnswersForEveryState : Prop :=
  ∀ s : State, ((∃ t, step s = .next t) ↔ s.status = .running) ∧
    (step s = .fault .invalidState ↔ s.status ≠ .running) ∧ ∀ r : Refusal, step s ≠ .refused r

/-- R26: the run-status machine. Initial is Running; Halted is entered on the halt instruction and Faulted on a decode
error or an out-of-bounds access, each from Running alone; neither is ever left; `halted` is "status is Halted". -/
def Obligations.RunStatusTransitions : Prop :=
  (∀ s t : State, step s = .next t → s.status = .running ∧
    (t.status = .halted ↔ s.decodeAt = .ok .hlt) ∧
    (t.status = .faulted ↔
      (∃ cause, s.decodeAt = .error cause) ∨
      ((s.decodeAt = .ok .ldm ∨ s.decodeAt = .ok .stm) ∧ 2048 ≤ s.ar.toNat) ∨
      (s.decodeAt = .ok .ldmar ∧ 2048 ≤ s.ar.toNat + 1))) ∧
  (∀ s : State, s.status ≠ .running → (∀ t, step s ≠ .next t) ∧ (hostStep s).1 = s) ∧
  (∀ (source : Option (List Byte)) (s : State), construct source = .ok s → s.status = .running) ∧
  (∀ s : State, s.halted = true ↔ s.status = .halted)

/-! ## What each instruction does -/

/-- NOP, at every state; at 2047 it succeeds, and the step after it faults (decisions D3 and D4). -/
def Obligations.NopOnlyAdvancesPc : Prop :=
  ∀ s : State, exec .nop s = .next { s with pc := s.pc + 1 } ∧
    (s.FetchesOpcode 0x00 → step s = .next { s with pc := s.pc + 1 }) ∧
    (s.FetchesOpcode 0x00 → s.pc.toNat = 2047 → ∃ t u r, step s = .next t ∧ t.status = .running ∧
      t.pc.toNat = 2048 ∧ step t = .next u ∧ u.status = .faulted ∧ u.fault = some r ∧
      r.error = .decodeError .pcOutOfBounds)

/-- R75: ADD wraps modulo 256 and always writes C; nothing else changes but the pc. -/
def Obligations.AddResult : Prop :=
  ∀ s : State,
    let t : State := { s with
      a := BitVec.ofNat 8 ((s.a.toNat + s.b.toNat) % 256)
      c := decide (s.a.toNat + s.b.toNat > 255)
      pc := s.pc + 1 }
    exec .add s = .next t ∧ (s.FetchesOpcode 0x01 → step s = .next t)

/-- SUB wraps modulo 256 and always writes the borrow to C; nothing else changes but the pc. That the result is
`(A - B) mod 256` the spec gives from general knowledge (R73, G2; log 7). -/
def Obligations.SubResult : Prop :=
  ∀ s : State,
    let t : State := { s with
      a := BitVec.ofInt 8 (((s.a.toNat : Int) - (s.b.toNat : Int)) % 256)
      c := decide (s.a.toNat < s.b.toNat)
      pc := s.pc + 1 }
    exec .sub s = .next t ∧ (s.FetchesOpcode 0x02 → step s = .next t)

/-- R79: LDI writes its operand byte to A, and faults where that byte would lie past the end of memory. -/
def Obligations.LdiResult : Prop :=
  (∀ (s : State) (v : Byte), exec (.ldi v) s = .next { s with a := v, pc := s.pc + 2 }) ∧
  (∀ s : State, s.FetchesOpcode 0x03 → s.pc.toNat + 1 < 2048 →
    step s = .next { s with a := s.mem.get (s.pc.toNat + 1), pc := s.pc + 2 }) ∧
  (∀ s : State, s.FetchesOpcode 0x03 → s.pc.toNat + 1 ≥ 2048 →
    ∃ r, r.error = .decodeError .operandOutOfBounds ∧
      step s = .next { s with status := .faulted, fault := some r })

/-- LDAR writes its operand to AR, the byte at pc+1 the less significant, and faults where an operand byte would lie
past the end of memory. That a little-endian u16 is `lo + 256 * hi` the spec gives from general knowledge (R37, G1;
log 6). -/
def Obligations.LdarResult : Prop :=
  (∀ (s : State) (v : AddrWord), exec (.ldar v) s = .next { s with ar := v, pc := s.pc + 3 }) ∧
  (∀ s : State, s.FetchesOpcode 0x04 → s.pc.toNat + 2 < 2048 →
    step s = .next { s with
      ar := BitVec.ofNat 16 ((s.mem.get (s.pc.toNat + 1)).toNat + 256 * (s.mem.get (s.pc.toNat + 2)).toNat)
      pc := s.pc + 3 }) ∧
  (∀ s : State, s.FetchesOpcode 0x04 → s.pc.toNat + 2 ≥ 2048 →
    ∃ r, r.error = .decodeError .operandOutOfBounds ∧
      step s = .next { s with status := .faulted, fault := some r })

/-- R82: LDM reads the byte at AR into A; out of bounds it raises MemoryAccessError(AR) and changes no register, no
byte and not the pc. -/
def Obligations.LdmResult : Prop :=
  ∀ s : State,
    (s.ar.toNat < 2048 → exec .ldm s = .next { s with a := s.mem.get s.ar.toNat, pc := s.pc + 1 }) ∧
    (s.ar.toNat ≥ 2048 → ∃ r, r.error = .memoryAccessError s.ar.toNat ∧
      exec .ldm s = .next { s with status := .faulted, fault := some r }) ∧
    (s.FetchesOpcode 0x05 → step s = exec .ldm s)

/-- LDMAR reads the two bytes at AR and AR+1 into AR, at an odd address too; with either out of bounds it raises
MemoryAccessError with the first such address and changes nothing else (log 6 for the value; D5 for the address). -/
def Obligations.LdmarResult : Prop :=
  ∀ s : State,
    (s.ar.toNat ≤ 2046 → exec .ldmar s = .next { s with
      ar := BitVec.ofNat 16 ((s.mem.get s.ar.toNat).toNat + 256 * (s.mem.get (s.ar.toNat + 1)).toNat)
      pc := s.pc + 1 }) ∧
    (s.ar.toNat = 2047 → ∃ r, r.error = .memoryAccessError 2048 ∧
      exec .ldmar s = .next { s with status := .faulted, fault := some r }) ∧
    (s.ar.toNat ≥ 2048 → ∃ r, r.error = .memoryAccessError s.ar.toNat ∧
      exec .ldmar s = .next { s with status := .faulted, fault := some r }) ∧
    (s.FetchesOpcode 0x06 → step s = exec .ldmar s)

/-- STM writes A to the byte at AR and to no other, every register but the pc as before; out of bounds it raises
MemoryAccessError(AR) and writes nothing (R84). The canonical form of the memory list, which is a premise and which the
new memory has again, is the model's own and not the spec's (log 5); what the raised error records is decision D5
(log 10). -/
def Obligations.StmResult : Prop :=
  ∀ s : State, s.mem.wf = true →
    effectiveAddress s = s.ar.toNat ∧
    (effectiveAddress s < 2048 → ∃ m : Memory,
      exec .stm s = .next { s with mem := m, pc := s.pc + 1 } ∧ m.wf = true ∧
      m.get (effectiveAddress s) = s.a ∧ ∀ x, x ≠ effectiveAddress s → m.get x = s.mem.get x) ∧
    (effectiveAddress s ≥ 2048 → ∃ r, r.error = .memoryAccessError s.ar.toNat ∧
      exec .stm s = .next { s with status := .faulted, fault := some r }) ∧
    (s.FetchesOpcode 0x07 → step s = exec .stm s)

/-- R85: TAB copies A to B, and no other instruction writes B. -/
def Obligations.TabResult : Prop :=
  ∀ s : State, exec .tab s = .next { s with b := s.a, pc := s.pc + 1 } ∧
    (s.FetchesOpcode 0x08 → step s = .next { s with b := s.a, pc := s.pc + 1 }) ∧
    (∀ (i : Instr) (t : State), i ≠ .tab → exec i s = .next t → t.b = s.b)

/-- R86: TBA copies B to A; after TAB then TBA, A is as before and B is A; at reset it gives 0. -/
def Obligations.TbaResult : Prop :=
  (∀ s : State, exec .tba s = .next { s with a := s.b, pc := s.pc + 1 } ∧
    (s.FetchesOpcode 0x09 → step s = .next { s with a := s.b, pc := s.pc + 1 })) ∧
  (∀ s : State, ∃ t u, exec .tab s = .next t ∧ exec .tba t = .next u ∧ u.a = s.a ∧ u.b = s.a) ∧
  (∃ t, exec .tba State.reset = .next t ∧ t.a = 0)

/-- JMP sets the pc to AR and changes nothing else; a target outside memory faults in the next step, not in this one
(decision D3). -/
def Obligations.JmpResult : Prop :=
  ∀ s : State,
    let t : State := { s with pc := BitVec.ofNat 32 s.ar.toNat }
    exec .jmp s = .next t ∧ (s.FetchesOpcode 0x0A → step s = .next t) ∧
    (s.FetchesOpcode 0x0A → s.ar.toNat ≥ 2048 → ∃ u, step t = .next u ∧ u.status = .faulted)

/-- JZ jumps exactly when A is 0, whatever C is; a taken jump outside memory faults in the next step (decision D3). -/
def Obligations.JzResult : Prop :=
  ∀ s : State,
    let t : State := { s with pc := if s.a.toNat = 0 then BitVec.ofNat 32 s.ar.toNat else s.pc + 1 }
    exec .jz s = .next t ∧ (s.FetchesOpcode 0x0B → step s = .next t) ∧
    (s.FetchesOpcode 0x0B → s.a.toNat = 0 → s.ar.toNat ≥ 2048 → ∃ u, step t = .next u ∧ u.status = .faulted)

/-- JC jumps exactly when the stored carry is set, whatever A and B are; a taken jump outside memory faults in the next
step (decision D3). -/
def Obligations.JcResult : Prop :=
  ∀ s : State,
    let t : State := { s with pc := if s.c = true then BitVec.ofNat 32 s.ar.toNat else s.pc + 1 }
    exec .jc s = .next t ∧ (s.FetchesOpcode 0x0C → step s = .next t) ∧
    (s.FetchesOpcode 0x0C → s.c = true → s.ar.toNat ≥ 2048 → ∃ u, step t = .next u ∧ u.status = .faulted)

/-- R92: HLT sets Halted and advances the pc, at 2047 too; a step after it returns InvalidStateError and changes
nothing; no other instruction sets Halted; and a run that ends without error ended by a HLT. -/
def Obligations.HltResult : Prop :=
  (∀ s : State, exec .hlt s = .next { s with status := .halted, pc := s.pc + 1 } ∧
    (s.FetchesOpcode 0xFF → step s = .next { s with status := .halted, pc := s.pc + 1 })) ∧
  (∀ s t : State, exec .hlt s = .next t → hostStep t = (t, .error .invalidState)) ∧
  (∀ (i : Instr) (s t : State), exec i s = .next t → t.status = .halted → s.status = .halted ∨ i = .hlt) ∧
  (∀ s t : State, RunReturns s t .ok → s.status ≠ .halted →
    ∃ us u, Trace s us u ∧ u.decodeAt = .ok .hlt ∧ step u = .next t)

/-! ## Who reads and writes what -/

/-- R13: the writers of A write what the rule says and no other instruction changes A; an instruction that does not
read A does the same to everything else whatever A holds. -/
def Obligations.WhoReadsAndWritesA : Prop :=
  ∀ (i : Instr) (s t : State), exec i s = .next t →
    (i = .add → t.a = (aluAdd s.a s.b).1) ∧ (i = .sub → t.a = (aluSub s.a s.b).1) ∧
    (∀ v, i = .ldi v → t.a = v) ∧ (i = .ldm → t.status ≠ .faulted → t.a = s.mem.get s.ar.toNat) ∧
    (i = .tba → t.a = s.b) ∧
    (i ≠ .add → i ≠ .sub → (∀ v, i ≠ .ldi v) → i ≠ .ldm → i ≠ .tba → t.a = s.a) ∧
    (i ≠ .add → i ≠ .sub → i ≠ .stm → i ≠ .tab → i ≠ .jz → ∀ v : Byte,
      ∃ t', exec i { s with a := v } = .next t' ∧ { t' with a := t.a } = t)

/-- R14: only TAB writes B, and only ADD, SUB and TBA read it: any other instruction does the same to everything else
whatever B holds. -/
def Obligations.WhoReadsAndWritesB : Prop :=
  ∀ (i : Instr) (s t : State), exec i s = .next t →
    (i = .tab → t.b = s.a) ∧ (i ≠ .tab → t.b = s.b) ∧
    (i ≠ .add → i ≠ .sub → i ≠ .tba → ∀ v : Byte,
      ∃ t', exec i { s with b := v } = .next t' ∧ { t' with b := t.b } = t)

/-- R22: only LDAR and LDMAR write AR, and only LDM, LDMAR, STM and the jumps read it: any other instruction does the
same to everything else whatever AR holds. No instruction increments AR. -/
def Obligations.WhoReadsAndWritesAr : Prop :=
  ∀ (i : Instr) (s t : State), exec i s = .next t →
    (∀ v, i = .ldar v → t.ar = v) ∧
    (i = .ldmar → s.ar.toNat + 1 < 2048 → t.ar.extractLsb' 0 8 = s.mem.get s.ar.toNat ∧
      t.ar.extractLsb' 8 8 = s.mem.get (s.ar.toNat + 1)) ∧
    ((∀ v, i ≠ .ldar v) → i ≠ .ldmar → t.ar = s.ar) ∧
    (i ≠ .ldm → i ≠ .ldmar → i ≠ .stm → i ≠ .jmp → i ≠ .jz → i ≠ .jc → ∀ v : AddrWord,
      ∃ t', exec i { s with ar := v } = .next t' ∧ { t' with ar := t.ar } = t)

/-- R24: only ADD and SUB write C, always; only JC reads it: any other instruction does the same to everything else
whatever C holds. Its reset value is false. -/
def Obligations.WhoReadsAndWritesC : Prop :=
  (∀ (i : Instr) (s t : State), exec i s = .next t →
    (i = .add → (t.c = true ↔ s.a.toNat + s.b.toNat > 255)) ∧
    (i = .sub → (t.c = true ↔ s.a.toNat < s.b.toNat)) ∧
    (i ≠ .add → i ≠ .sub → t.c = s.c) ∧
    (i ≠ .jc → ∀ v : Bool, ∃ t', exec i { s with c := v } = .next t' ∧ { t' with c := t.c } = t)) ∧
  State.reset.c = false

/-- Only LDM, LDMAR and STM reach data memory: any other instruction does the same whatever memory holds, LDM reads
only the byte at AR, LDMAR only the bytes at AR and AR+1, and STM none. -/
def Obligations.WhoReadsMemory : Prop :=
  ∀ (i : Instr) (s t : State) (m : Memory), exec i s = .next t →
    (i ≠ .ldm → i ≠ .ldmar → i ≠ .stm → exec i { s with mem := m } = .next { t with mem := m }) ∧
    (i = .ldm → m.get s.ar.toNat = s.mem.get s.ar.toNat →
      exec i { s with mem := m } = .next { t with mem := m }) ∧
    (i = .ldmar → m.get s.ar.toNat = s.mem.get s.ar.toNat →
      m.get (s.ar.toNat + 1) = s.mem.get (s.ar.toNat + 1) →
      exec i { s with mem := m } = .next { t with mem := m }) ∧
    (i = .stm → ∃ t', exec i { s with mem := m } = .next t' ∧ { t' with mem := t.mem } = t)

/-- R42: no read changes memory, and STM changes only the byte at the address it stores to. -/
def Obligations.OnlyStmChangesMemory : Prop :=
  ∀ (i : Instr) (s t : State), exec i s = .next t →
    effectiveAddress s = s.ar.toNat ∧
    (i ≠ .stm → ∀ x, t.mem.get x = s.mem.get x) ∧
    (i = .stm → ∀ x, x ≠ effectiveAddress s → t.mem.get x = s.mem.get x)

/-- R18 and R68: a successful step sets the pc, exactly and without wrapping, to the target AR for a taken jump and to
pc plus the length otherwise; a failed step leaves it. -/
def Obligations.NextPcOfAStep : Prop :=
  ∀ s t : State, step s = .next t →
    (t.status = .faulted → t.pc = s.pc) ∧
    (t.status ≠ .faulted → ∃ i, s.decodeAt = .ok i ∧
      ((i = .jmp ∨ (i = .jz ∧ s.a.toNat = 0) ∨ (i = .jc ∧ s.c = true)) → t.pc.toNat = s.ar.toNat) ∧
      (¬ (i = .jmp ∨ (i = .jz ∧ s.a.toNat = 0) ∨ (i = .jc ∧ s.c = true)) →
        t.pc.toNat = s.pc.toNat + i.len))

/-! ## Laws -/

/-- ADD then SUB, or SUB then ADD, with B unchanged restores A, and C is the first one's carry or borrow. The spec
derives these laws from its ALU rules (R77). -/
def Obligations.AddAndSubUndoEachOther : Prop :=
  (∀ s : State, ∃ t u, exec .add s = .next t ∧ exec .sub t = .next u ∧ u.a = s.a ∧ u.c = t.c ∧
    (u.c = true ↔ s.a.toNat + s.b.toNat > 255)) ∧
  (∀ s : State, ∃ t u, exec .sub s = .next t ∧ exec .add t = .next u ∧ u.a = s.a ∧ u.c = t.c ∧
    (u.c = true ↔ s.a.toNat < s.b.toNat))

/-- A byte stored through AR is loaded back through the same AR, whatever happened to the other registers. -/
def Obligations.StoredByteLoadsBack : Prop :=
  ∀ s t u : State, s.mem.wf = true → s.ar.toNat < 2048 → exec .stm s = .next t → u.mem = t.mem → u.ar = s.ar →
    exec .ldm u = .next { u with a := s.a, pc := u.pc + 1 }

/-- R49: the step that stores completes as the STM it was decoded as, and every later opcode or operand read at that
address sees the byte, from the very next step on, until another STM stores there. -/
def Obligations.StoredCodeIsFetched : Prop :=
  ∀ s t : State, s.mem.wf = true → s.FetchesOpcode 0x07 → s.ar.toNat < 2048 → step s = .next t →
    t.status = .running ∧ t.pc.toNat = s.pc.toNat + 1 ∧
    ∀ (us : List State) (u : State) (k : Nat), Trace t us u →
      (∀ v ∈ us, v.decodeAt = .ok .stm → v.ar.toNat ≠ s.ar.toNat) →
      u.pc.toNat + k = s.ar.toNat → u.instrByte k = some s.a

/-- R46: after any run, every address holds what the most recent STM to it stored, and what it held at the start where
none did. -/
def Obligations.MemoryHoldsLastStore : Prop :=
  ∀ (s t : State) (us : List State) (x : Nat), s.mem.wf = true → Trace s us t → x < 2048 →
    t.mem.get x =
      us.foldl (fun held u => if u.decodeAt = .ok .stm ∧ u.ar.toNat = x then u.a else held) (s.mem.get x)

/-- After any run, C is the carry-out of the most recent ADD or SUB, and what it was at the start where none ran. -/
def Obligations.CarryIsOfLastArithmetic : Prop :=
  ∀ (s t : State) (us : List State), Trace s us t →
    t.c =
      us.foldl (fun held u =>
        if u.decodeAt = .ok .add then decide (u.a.toNat + u.b.toNat > 255)
        else if u.decodeAt = .ok .sub then decide (u.a.toNat < u.b.toNat)
        else held) s.c

/-- Two memories in the canonical form that read alike at every address of the bank are one (log 5). -/
def Obligations.MemoriesThatReadAlikeAreEqual : Prop :=
  ∀ m m' : Memory, m.wf = true → m'.wf = true → (∀ x, x < 2048 → m.get x = m'.get x) → m = m'

/-! ## The invariant -/

/-- Every step from a state that meets the invariant leads to one that meets it (R21, R27, R92, R96, R101; the record's
contents are decision D5). -/
def Obligations.StepKeepsInvariant : Prop :=
  ∀ s t : State, s.Inv → step s = .next t → t.Inv

/-- The reset state meets the invariant. -/
def Obligations.ResetMeetsInvariant : Prop := State.reset.Inv

/-- Every state constructed from an image meets the invariant, and so does every state that a run reaches from it. -/
def Obligations.ReachableStatesMeetInvariant : Prop := ∀ s : State, Reachable s → s.Inv

/-! ## Construction and the host interface -/

/-- R112, R113: `construct` accepts the images of at most 2048 bytes, places them from address 0 with zeros after them,
and sets every other element to its reset value; else it is a LoadError. -/
def Obligations.ConstructPlacesTheImage : Prop :=
  (∀ img : List Byte, img.length ≤ 2048 → ∃ s, construct (some img) = .ok s ∧
    (∀ x, x < 2048 → s.mem.get x = if h : x < img.length then img[x] else 0) ∧
    s.a = 0 ∧ s.b = 0 ∧ s.ar = 0 ∧ s.c = false ∧ s.pc = 0 ∧ s.status = .running ∧ s.fault = none) ∧
  (∀ img : List Byte, img.length > 2048 → construct (some img) = .error .tooLarge) ∧
  construct none = .error .unreadable

/-- R29: the reset state, with the empty image's memory of zeros (log 4). -/
def Obligations.ResetValues : Prop :=
  State.reset.a = 0 ∧ State.reset.b = 0 ∧ State.reset.ar = 0 ∧ State.reset.c = false ∧ State.reset.pc = 0 ∧
  State.reset.status = .running ∧ State.reset.fault = none ∧ (∀ x, State.reset.mem.get x = 0) ∧
  construct (some []) = .ok State.reset

/-- `run()` does what its loop says: nothing on a Halted core, else one step, and on from there unless it returned an
error. Rests on decision D16 for a core already Halted or Faulted (R121). -/
def Obligations.RunFollowsItsLoop : Prop :=
  ∀ (s t : State) (r : CallResult), RunReturns s t r ↔
    (s.status = .halted ∧ t = s ∧ r = .ok) ∨
    (s.status ≠ .halted ∧
      (((hostStep s).2 = .ok ∧ RunReturns (hostStep s).1 t r) ∨
        ((hostStep s).2 ≠ .ok ∧ t = (hostStep s).1 ∧ r = (hostStep s).2)))

/-- `run()` returns Ok with status Halted, or an error with status Faulted, or never (R121, R122); which one is
determined; and a jump to itself makes it never return. This is said of every call: that one at a core already Halted
returns Ok, and one at a core already Faulted the error InvalidStateError, is decision D16 and not R122 (log 13). Which
error a call returns is not said here: `Obligations.RunFollowsItsLoop` says that it is the one its step returned. -/
def Obligations.RunHasThreeOutcomes : Prop :=
  (∀ s : State, RunDiverges s ∨ ∃ t r, RunReturns s t r) ∧
  (∀ (s t : State) (r : CallResult), RunReturns s t r →
    (t.status = .halted ∧ r = .ok) ∨ (t.status = .faulted ∧ ∃ e, r = .error e)) ∧
  (∀ (s t t' : State) (r r' : CallResult), RunReturns s t r →
    ¬ RunDiverges s ∧ (RunReturns s t' r' → t' = t ∧ r' = r)) ∧
  (∀ s : State, s.FetchesOpcode 0x0A → s.ar.toNat = s.pc.toNat → RunDiverges s)
end

