-- ==== Sys2Proof/Laws/Memory.lean ====
section
/-! SUPPORT. The memory list: read after write, and the canonical form that every operation keeps. -/

namespace Sys2Proof.Machine

@[simp] theorem Memory.get_nil (x : Nat) : Memory.get [] x = 0 := rfl

theorem Memory.get_cell (k : Nat) (v : Byte) (m : Memory) (x : Nat) :
    Memory.get ((k, v) :: m) x = if k = x then v else Memory.get m x := rfl

/-! ### wfFrom -/

theorem Memory.wfFrom_cell {lo k : Nat} {v : Byte} {m : List Host.Cell} :
    Memory.wfFrom lo ((k, v) :: m) = true ↔
      lo ≤ k ∧ k < 2048 ∧ v ≠ 0 ∧ Memory.wfFrom (k + 1) m = true := by
  simp only [Memory.wfFrom, Bool.and_eq_true, decide_eq_true_eq, and_assoc]
  rfl

theorem Memory.wfFrom_mono {lo lo' : Nat} {m : List Host.Cell} (h : Memory.wfFrom lo' m = true) (hle : lo ≤ lo') :
    Memory.wfFrom lo m = true := by
  cases m with
  | nil => rfl
  | cons cell m =>
    obtain ⟨h1, h2, h3, h4⟩ := Memory.wfFrom_cell.1 h
    exact Memory.wfFrom_cell.2 ⟨by omega, h2, h3, h4⟩

/-- An address below every cell is not listed, so it holds the fill byte. -/
theorem Memory.get_below {lo x : Nat} {m : Memory} (h : Memory.wfFrom lo m = true) (hx : x < lo) :
    Memory.get m x = 0 := by
  induction m generalizing lo with
  | nil => rfl
  | cons cell m ih =>
    obtain ⟨h1, -, -, h4⟩ := Memory.wfFrom_cell.1 h
    rw [Memory.get_cell, if_neg (by omega)]
    exact ih h4 (by omega)

/-- An address outside the bank is not listed. -/
theorem Memory.get_outside {m : Memory} {lo x : Nat} (h : Memory.wfFrom lo m = true) (hx : 2048 ≤ x) :
    Memory.get m x = 0 := by
  induction m generalizing lo with
  | nil => rfl
  | cons cell m ih =>
    obtain ⟨-, h2, -, h4⟩ := Memory.wfFrom_cell.1 h
    rw [Memory.get_cell, if_neg (by omega)]
    exact ih h4

/-! ### cons -/

theorem Memory.wfFrom_cons {lo x : Nat} {v : Byte} {m : Memory} (hlo : lo ≤ x) (hx : x < 2048)
    (h : Memory.wfFrom (x + 1) m = true) : Memory.wfFrom lo (Memory.cons x v m) = true := by
  unfold Memory.cons
  split
  · exact Memory.wfFrom_mono h (by omega)
  · exact Memory.wfFrom_cell.2 ⟨hlo, hx, by assumption, h⟩

theorem Memory.get_cons_same {x : Nat} {v : Byte} {m : Memory} (h : Memory.get m x = 0 ∨ v ≠ 0) :
    Memory.get (Memory.cons x v m) x = v := by
  unfold Memory.cons
  split
  · rename_i hv
    subst hv
    exact h.resolve_right (fun hne => hne rfl)
  · rw [Memory.get_cell, if_pos rfl]

theorem Memory.get_cons_ne {x y : Nat} {v : Byte} {m : Memory} (h : x ≠ y) :
    Memory.get (Memory.cons x v m) y = Memory.get m y := by
  unfold Memory.cons
  split
  · rfl
  · rw [Memory.get_cell, if_neg h]

/-! ### set -/

/-- A write leaves every other address alone (R42). -/
theorem Memory.get_set_ne {m : Memory} {x y : Nat} {v : Byte} (h : x ≠ y) :
    (m.set x v).get y = m.get y := by
  induction m with
  | nil => exact Memory.get_cons_ne h
  | cons cell m ih =>
    rw [Memory.set]
    split
    · exact Memory.get_cons_ne h
    · split
      · rename_i _ he
        rw [Memory.get_cons_ne h, Memory.get_cell, if_neg (by omega)]
      · rw [Memory.get_cell, Memory.get_cell, ih]

theorem Memory.get_set_same_from {m : Memory} {lo x : Nat} {v : Byte} (hm : Memory.wfFrom lo m = true) :
    (m.set x v).get x = v := by
  induction m generalizing lo with
  | nil => exact Memory.get_cons_same (.inl rfl)
  | cons cell m ih =>
    obtain ⟨h1, h2, h3, h4⟩ := Memory.wfFrom_cell.1 hm
    rw [Memory.set]
    split
    · rename_i hlt
      refine Memory.get_cons_same (.inl ?_)
      rw [Memory.get_cell, if_neg (by omega)]
      exact Memory.get_below h4 (by omega)
    · split
      · exact Memory.get_cons_same (.inl (Memory.get_below h4 (by omega)))
      · rw [Memory.get_cell, if_neg (by omega)]
        exact ih h4

/-- A read after a write to the same address gives the byte written. -/
theorem Memory.get_set_same {m : Memory} {x : Nat} {v : Byte} (hm : m.wf = true) : (m.set x v).get x = v :=
  Memory.get_set_same_from hm

theorem Memory.wfFrom_set {m : Memory} {lo x : Nat} {v : Byte} (hm : Memory.wfFrom lo m = true) (hlo : lo ≤ x)
    (hx : x < 2048) : Memory.wfFrom lo (m.set x v) = true := by
  induction m generalizing lo with
  | nil => exact Memory.wfFrom_cons hlo hx rfl
  | cons cell m ih =>
    obtain ⟨h1, h2, h3, h4⟩ := Memory.wfFrom_cell.1 hm
    rw [Memory.set]
    split
    · exact Memory.wfFrom_cons hlo hx (Memory.wfFrom_cell.2 ⟨by omega, h2, h3, h4⟩)
    · split
      · exact Memory.wfFrom_cons hlo hx (Memory.wfFrom_mono h4 (by omega))
      · exact Memory.wfFrom_cell.2 ⟨h1, h2, h3, ih h4 (by omega)⟩

/-- A write inside the bank keeps the canonical form. -/
theorem Memory.wf_set {m : Memory} {x : Nat} {v : Byte} (hm : m.wf = true) (hx : x < 2048) :
    (m.set x v).wf = true := Memory.wfFrom_set hm (by omega) hx

/-! ### place, placeBytes -/

theorem Memory.wf_place {m : Memory} {x : Nat} {v : Byte} (hm : m.wf = true) : (m.place x v).wf = true := by
  unfold Memory.place
  split
  · exact Memory.wf_set hm (by assumption)
  · exact hm

theorem Memory.wf_placeBytes {m : Memory} {x : Nat} {bs : List Byte} (hm : m.wf = true) :
    (m.placeBytes x bs).wf = true := by
  induction bs generalizing m x with
  | nil => exact hm
  | cons b bs ih => exact ih (Memory.wf_place hm)

/-! ### ofBytes (R112) -/

theorem Memory.wfFrom_ofBytes {x : Nat} {bs : List Byte} (h : x + bs.length ≤ 2048) :
    Memory.wfFrom x (Memory.ofBytes x bs) = true := by
  induction bs generalizing x with
  | nil => rfl
  | cons b bs ih =>
    simp only [List.length_cons] at h
    exact Memory.wfFrom_cons (by omega) (by omega) (ih (by omega))

/-- An image that fits gives a memory in the canonical form. -/
theorem Memory.wf_ofBytes {bs : List Byte} (h : bs.length ≤ 2048) : (Memory.ofBytes 0 bs).wf = true :=
  Memory.wfFrom_ofBytes (by omega)

/-- What the placed bytes read as: the byte at its place, else the fill byte. -/
theorem Memory.get_ofBytes {x y : Nat} {bs : List Byte} (h : x + bs.length ≤ 2048) :
    (Memory.ofBytes x bs).get y = if x ≤ y then bs.getD (y - x) 0 else 0 := by
  induction bs generalizing x with
  | nil => simp [Memory.ofBytes]
  | cons b bs ih =>
    simp only [List.length_cons] at h
    have hw := Memory.wfFrom_ofBytes (x := x + 1) (bs := bs) (by omega)
    rw [Memory.ofBytes]
    by_cases hxy : x = y
    · subst hxy
      rw [Memory.get_cons_same (.inl (Memory.get_below hw (by omega)))]
      simp
    · rw [Memory.get_cons_ne hxy, ih (by omega)]
      by_cases hlt : x < y
      · have : y - x = (y - (x + 1)) + 1 := by omega
        rw [if_pos (by omega), if_pos (by omega), this, List.getD_cons_succ]
      · rw [if_neg (by omega), if_neg (by omega)]

/-- The reset memory is in the canonical form. -/
theorem State.reset_mem_wf : State.reset.mem.wf = true := rfl

/-- `State.reset` is the construction from the empty image (R113). -/
theorem construct_empty : construct (some []) = .ok State.reset := rfl

end Sys2Proof.Machine
end

