-- ==== Sys2Proof/Laws/PerInstr.lean ====
section
/-! SUPPORT. A statement made per instruction: its encoding has the length and the opcode of its row. -/

namespace Sys2Proof.Laws

/-- Every instruction is well-formed: R60, "Operand bytes are never checked". -/
theorem wellFormed_all (i : Instr) : i.wellFormed = true := by
  cases i with
  | ldi imm8 => simpa [Instr.wellFormed] using Nat.le_of_lt_succ imm8.isLt
  | ldar imm16 => simpa [Instr.wellFormed] using Nat.le_of_lt_succ imm16.isLt
  | _ => rfl

/-- The encoding of an instruction has its length, which is 1, 2 or 3, and begins with its opcode, which is a legal
one (R52, R57, R58). -/
def EncodedForm.Statement (i : Instr) : Prop :=
  i.wellFormed = true →
    (encode i).length = i.len ∧ 1 ≤ i.len ∧ i.len ≤ 3 ∧ (encode i).head? = some i.opcode ∧
      (i.opcode.toNat ≤ 12 ∨ i.opcode.toNat = 255)

theorem EncodedForm.nop : EncodedForm.Statement .nop := by intro _; decide
theorem EncodedForm.add : EncodedForm.Statement .add := by intro _; decide
theorem EncodedForm.sub : EncodedForm.Statement .sub := by intro _; decide
theorem EncodedForm.ldi (imm8 : Byte) : EncodedForm.Statement (.ldi imm8) := by
  intro _; simp [encode, Instr.len, Instr.opcode, Instr.operandBytes]
theorem EncodedForm.ldar (imm16 : AddrWord) : EncodedForm.Statement (.ldar imm16) := by
  intro _; simp [encode, Instr.len, Instr.opcode, Instr.operandBytes]
theorem EncodedForm.ldm : EncodedForm.Statement .ldm := by intro _; decide
theorem EncodedForm.ldmar : EncodedForm.Statement .ldmar := by intro _; decide
theorem EncodedForm.stm : EncodedForm.Statement .stm := by intro _; decide
theorem EncodedForm.tab : EncodedForm.Statement .tab := by intro _; decide
theorem EncodedForm.tba : EncodedForm.Statement .tba := by intro _; decide
theorem EncodedForm.jmp : EncodedForm.Statement .jmp := by intro _; decide
theorem EncodedForm.jz : EncodedForm.Statement .jz := by intro _; decide
theorem EncodedForm.jc : EncodedForm.Statement .jc := by intro _; decide
theorem EncodedForm.hlt : EncodedForm.Statement .hlt := by intro _; decide

end Sys2Proof.Laws
end

