-- ==== Sys2Proof/Laws/State.lean ====
section
/-! SUPPORT. One lemma per field per update of State, so that no proof unfolds a record update. -/

namespace Sys2Proof.Machine

/-! ### setA -/

@[simp] theorem State.setA_a (s : State) (v : Byte) : (s.setA v).a = v := rfl
@[simp] theorem State.setA_b (s : State) (v : Byte) : (s.setA v).b = s.b := rfl
@[simp] theorem State.setA_ar (s : State) (v : Byte) : (s.setA v).ar = s.ar := rfl
@[simp] theorem State.setA_c (s : State) (v : Byte) : (s.setA v).c = s.c := rfl
@[simp] theorem State.setA_pc (s : State) (v : Byte) : (s.setA v).pc = s.pc := rfl
@[simp] theorem State.setA_mem (s : State) (v : Byte) : (s.setA v).mem = s.mem := rfl
@[simp] theorem State.setA_status (s : State) (v : Byte) : (s.setA v).status = s.status := rfl
@[simp] theorem State.setA_fault (s : State) (v : Byte) : (s.setA v).fault = s.fault := rfl

/-! ### setB -/

@[simp] theorem State.setB_a (s : State) (v : Byte) : (s.setB v).a = s.a := rfl
@[simp] theorem State.setB_b (s : State) (v : Byte) : (s.setB v).b = v := rfl
@[simp] theorem State.setB_ar (s : State) (v : Byte) : (s.setB v).ar = s.ar := rfl
@[simp] theorem State.setB_c (s : State) (v : Byte) : (s.setB v).c = s.c := rfl
@[simp] theorem State.setB_pc (s : State) (v : Byte) : (s.setB v).pc = s.pc := rfl
@[simp] theorem State.setB_mem (s : State) (v : Byte) : (s.setB v).mem = s.mem := rfl
@[simp] theorem State.setB_status (s : State) (v : Byte) : (s.setB v).status = s.status := rfl
@[simp] theorem State.setB_fault (s : State) (v : Byte) : (s.setB v).fault = s.fault := rfl

/-! ### setAr -/

@[simp] theorem State.setAr_a (s : State) (v : AddrWord) : (s.setAr v).a = s.a := rfl
@[simp] theorem State.setAr_b (s : State) (v : AddrWord) : (s.setAr v).b = s.b := rfl
@[simp] theorem State.setAr_ar (s : State) (v : AddrWord) : (s.setAr v).ar = v := rfl
@[simp] theorem State.setAr_c (s : State) (v : AddrWord) : (s.setAr v).c = s.c := rfl
@[simp] theorem State.setAr_pc (s : State) (v : AddrWord) : (s.setAr v).pc = s.pc := rfl
@[simp] theorem State.setAr_mem (s : State) (v : AddrWord) : (s.setAr v).mem = s.mem := rfl
@[simp] theorem State.setAr_status (s : State) (v : AddrWord) : (s.setAr v).status = s.status := rfl
@[simp] theorem State.setAr_fault (s : State) (v : AddrWord) : (s.setAr v).fault = s.fault := rfl

/-! ### setC -/

@[simp] theorem State.setC_a (s : State) (v : Bool) : (s.setC v).a = s.a := rfl
@[simp] theorem State.setC_b (s : State) (v : Bool) : (s.setC v).b = s.b := rfl
@[simp] theorem State.setC_ar (s : State) (v : Bool) : (s.setC v).ar = s.ar := rfl
@[simp] theorem State.setC_c (s : State) (v : Bool) : (s.setC v).c = v := rfl
@[simp] theorem State.setC_pc (s : State) (v : Bool) : (s.setC v).pc = s.pc := rfl
@[simp] theorem State.setC_mem (s : State) (v : Bool) : (s.setC v).mem = s.mem := rfl
@[simp] theorem State.setC_status (s : State) (v : Bool) : (s.setC v).status = s.status := rfl
@[simp] theorem State.setC_fault (s : State) (v : Bool) : (s.setC v).fault = s.fault := rfl

/-! ### setPc -/

@[simp] theorem State.setPc_a (s : State) (v : PcWord) : (s.setPc v).a = s.a := rfl
@[simp] theorem State.setPc_b (s : State) (v : PcWord) : (s.setPc v).b = s.b := rfl
@[simp] theorem State.setPc_ar (s : State) (v : PcWord) : (s.setPc v).ar = s.ar := rfl
@[simp] theorem State.setPc_c (s : State) (v : PcWord) : (s.setPc v).c = s.c := rfl
@[simp] theorem State.setPc_pc (s : State) (v : PcWord) : (s.setPc v).pc = v := rfl
@[simp] theorem State.setPc_mem (s : State) (v : PcWord) : (s.setPc v).mem = s.mem := rfl
@[simp] theorem State.setPc_status (s : State) (v : PcWord) : (s.setPc v).status = s.status := rfl
@[simp] theorem State.setPc_fault (s : State) (v : PcWord) : (s.setPc v).fault = s.fault := rfl

/-! ### setMem -/

@[simp] theorem State.setMem_a (s : State) (m : Memory) : (s.setMem m).a = s.a := rfl
@[simp] theorem State.setMem_b (s : State) (m : Memory) : (s.setMem m).b = s.b := rfl
@[simp] theorem State.setMem_ar (s : State) (m : Memory) : (s.setMem m).ar = s.ar := rfl
@[simp] theorem State.setMem_c (s : State) (m : Memory) : (s.setMem m).c = s.c := rfl
@[simp] theorem State.setMem_pc (s : State) (m : Memory) : (s.setMem m).pc = s.pc := rfl
@[simp] theorem State.setMem_mem (s : State) (m : Memory) : (s.setMem m).mem = m := rfl
@[simp] theorem State.setMem_status (s : State) (m : Memory) : (s.setMem m).status = s.status := rfl
@[simp] theorem State.setMem_fault (s : State) (m : Memory) : (s.setMem m).fault = s.fault := rfl

/-! ### setStatus -/

@[simp] theorem State.setStatus_a (s : State) (v : Status) : (s.setStatus v).a = s.a := rfl
@[simp] theorem State.setStatus_b (s : State) (v : Status) : (s.setStatus v).b = s.b := rfl
@[simp] theorem State.setStatus_ar (s : State) (v : Status) : (s.setStatus v).ar = s.ar := rfl
@[simp] theorem State.setStatus_c (s : State) (v : Status) : (s.setStatus v).c = s.c := rfl
@[simp] theorem State.setStatus_pc (s : State) (v : Status) : (s.setStatus v).pc = s.pc := rfl
@[simp] theorem State.setStatus_mem (s : State) (v : Status) : (s.setStatus v).mem = s.mem := rfl
@[simp] theorem State.setStatus_status (s : State) (v : Status) : (s.setStatus v).status = v := rfl
@[simp] theorem State.setStatus_fault (s : State) (v : Status) : (s.setStatus v).fault = s.fault := rfl

/-! ### advance (R10) -/

@[simp] theorem State.advance_a (s : State) (n : Nat) : (s.advance n).a = s.a := rfl
@[simp] theorem State.advance_b (s : State) (n : Nat) : (s.advance n).b = s.b := rfl
@[simp] theorem State.advance_ar (s : State) (n : Nat) : (s.advance n).ar = s.ar := rfl
@[simp] theorem State.advance_c (s : State) (n : Nat) : (s.advance n).c = s.c := rfl
@[simp] theorem State.advance_pc (s : State) (n : Nat) : (s.advance n).pc = s.pc + BitVec.ofNat 32 n := rfl
@[simp] theorem State.advance_mem (s : State) (n : Nat) : (s.advance n).mem = s.mem := rfl
@[simp] theorem State.advance_status (s : State) (n : Nat) : (s.advance n).status = s.status := rfl
@[simp] theorem State.advance_fault (s : State) (n : Nat) : (s.advance n).fault = s.fault := rfl

/-! ### raiseError (R95): only the status and the record change -/

@[simp] theorem State.raiseError_a (s : State) (e : RunError) : (s.raiseError e).a = s.a := rfl
@[simp] theorem State.raiseError_b (s : State) (e : RunError) : (s.raiseError e).b = s.b := rfl
@[simp] theorem State.raiseError_ar (s : State) (e : RunError) : (s.raiseError e).ar = s.ar := rfl
@[simp] theorem State.raiseError_c (s : State) (e : RunError) : (s.raiseError e).c = s.c := rfl
@[simp] theorem State.raiseError_pc (s : State) (e : RunError) : (s.raiseError e).pc = s.pc := rfl
@[simp] theorem State.raiseError_mem (s : State) (e : RunError) : (s.raiseError e).mem = s.mem := rfl
@[simp] theorem State.raiseError_status (s : State) (e : RunError) : (s.raiseError e).status = .faulted := rfl
@[simp] theorem State.raiseError_fault (s : State) (e : RunError) : (s.raiseError e).fault = some { error := e, pc := s.pc } := rfl

/-! ### writeAlu (R73): A and C change -/

@[simp] theorem State.writeAlu_a (s : State) (r : Byte × Bool) : (s.writeAlu r).a = r.1 := rfl
@[simp] theorem State.writeAlu_b (s : State) (r : Byte × Bool) : (s.writeAlu r).b = s.b := rfl
@[simp] theorem State.writeAlu_ar (s : State) (r : Byte × Bool) : (s.writeAlu r).ar = s.ar := rfl
@[simp] theorem State.writeAlu_c (s : State) (r : Byte × Bool) : (s.writeAlu r).c = r.2 := rfl
@[simp] theorem State.writeAlu_pc (s : State) (r : Byte × Bool) : (s.writeAlu r).pc = s.pc := rfl
@[simp] theorem State.writeAlu_mem (s : State) (r : Byte × Bool) : (s.writeAlu r).mem = s.mem := rfl
@[simp] theorem State.writeAlu_status (s : State) (r : Byte × Bool) : (s.writeAlu r).status = s.status := rfl
@[simp] theorem State.writeAlu_fault (s : State) (r : Byte × Bool) : (s.writeAlu r).fault = s.fault := rfl

/-! ### jumpIf (R68): the pc alone changes -/

@[simp] theorem State.jumpIf_a (s : State) (taken : Bool) : (s.jumpIf taken).a = s.a := by
  cases taken <;> rfl
@[simp] theorem State.jumpIf_b (s : State) (taken : Bool) : (s.jumpIf taken).b = s.b := by
  cases taken <;> rfl
@[simp] theorem State.jumpIf_ar (s : State) (taken : Bool) : (s.jumpIf taken).ar = s.ar := by
  cases taken <;> rfl
@[simp] theorem State.jumpIf_c (s : State) (taken : Bool) : (s.jumpIf taken).c = s.c := by
  cases taken <;> rfl
@[simp] theorem State.jumpIf_pc (s : State) (taken : Bool) :
    (s.jumpIf taken).pc = if taken then jumpTarget s else s.pc + BitVec.ofNat 32 1 := by
  cases taken <;> rfl
@[simp] theorem State.jumpIf_mem (s : State) (taken : Bool) : (s.jumpIf taken).mem = s.mem := by
  cases taken <;> rfl
@[simp] theorem State.jumpIf_status (s : State) (taken : Bool) : (s.jumpIf taken).status = s.status := by
  cases taken <;> rfl
@[simp] theorem State.jumpIf_fault (s : State) (taken : Bool) : (s.jumpIf taken).fault = s.fault := by
  cases taken <;> rfl

/-! ### The state after reset (R29) -/

@[simp] theorem State.reset_a : State.reset.a = 0 := rfl
@[simp] theorem State.reset_b : State.reset.b = 0 := rfl
@[simp] theorem State.reset_ar : State.reset.ar = 0 := rfl
@[simp] theorem State.reset_c : State.reset.c = false := rfl
@[simp] theorem State.reset_pc : State.reset.pc = 0 := rfl
@[simp] theorem State.reset_mem : State.reset.mem = [] := rfl
@[simp] theorem State.reset_status : State.reset.status = .running := rfl
@[simp] theorem State.reset_fault : State.reset.fault = none := rfl

end Sys2Proof.Machine
end

