-- ==== Sys2Proof/Laws/Ops.lean ====
section
/-! SUPPORT. What each shared operation can do, said once. -/

namespace Sys2Proof

/-! ### Decoder operations -/

/-- R37: `le16(lo, hi) = lo + 256 * hi`. -/
theorem le16_toNat (lo hi : Byte) : (le16 lo hi).toNat = lo.toNat + 256 * hi.toNat := by
  unfold le16
  rw [BitVec.toNat_append, Nat.shiftLeft_eq, Nat.lor_comm, Nat.or_comm, ← Nat.shiftLeft_eq,
    ← Nat.shiftLeft_add_eq_or_of_lt (by omega), Nat.shiftLeft_eq]
  omega

theorem le16_extract (v : AddrWord) : le16 (v.extractLsb' 0 8) (v.extractLsb' 8 8) = v := by
  apply BitVec.eq_of_toNat_eq
  rw [le16_toNat]
  simp [BitVec.extractLsb'_toNat, Nat.shiftRight_eq_div_pow]
  omega

theorem le16_low (lo hi : Byte) : (le16 lo hi).extractLsb' 0 8 = lo := by
  apply BitVec.eq_of_toNat_eq
  simp [le16_toNat]
  omega

theorem le16_high (lo hi : Byte) : (le16 lo hi).extractLsb' 8 8 = hi := by
  apply BitVec.eq_of_toNat_eq
  simp [le16_toNat, Nat.shiftRight_eq_div_pow]
  omega

theorem fetchByte_ok {r : Nat → Option Byte} {k : Nat} {cause : DecodeCause} {v : Byte} :
    fetchByte r k cause = .ok v ↔ r k = some v := by
  unfold fetchByte
  cases r k <;> simp

theorem fetchByte_error {r : Nat → Option Byte} {k : Nat} {cause e : DecodeCause} :
    fetchByte r k cause = .error e ↔ r k = none ∧ e = cause := by
  unfold fetchByte
  cases r k <;> simp [eq_comm]

theorem decodeLdi_cases {r : Nat → Option Byte} :
    (∃ v, r 1 = some v ∧ decodeLdi r = .ok (.ldi v)) ∨
      (r 1 = none ∧ decodeLdi r = .error .operandOutOfBounds) := by
  unfold decodeLdi fetchByte
  cases r 1 <;> simp

theorem decodeLdar_cases {r : Nat → Option Byte} :
    (∃ lo hi, r 1 = some lo ∧ r 2 = some hi ∧ decodeLdar r = .ok (.ldar (le16 lo hi))) ∨
      ((r 1 = none ∨ r 2 = none) ∧ decodeLdar r = .error .operandOutOfBounds) := by
  unfold decodeLdar fetchByte
  cases r 1 <;> cases r 2 <;> simp

/-- A byte is a legal opcode or one of the 242 illegal ones (R58, R59). -/
theorem opcode_legal_or_illegal (op : Byte) :
    (op.toNat ≤ 12 ∨ op.toNat = 255) ∨ (13 ≤ op.toNat ∧ op.toNat ≤ 254) := by
  have := op.isLt
  omega

theorem legal_opcodes :
    ∀ op : Byte, (op.toNat ≤ 12 ∨ op.toNat = 255) →
      op = 0 ∨ op = 1 ∨ op = 2 ∨ op = 3 ∨ op = 4 ∨ op = 5 ∨ op = 6 ∨ op = 7 ∨ op = 8 ∨ op = 9 ∨ op = 10 ∨
        op = 11 ∨ op = 12 ∨ op = 255 := by
  decide

theorem decodeOpcode_illegal (r : Nat → Option Byte) {op : Byte} (h : 13 ≤ op.toNat ∧ op.toNat ≤ 254) :
    decodeOpcode r op = .error (.illegalOpcode op) := by
  unfold decodeOpcode
  split
  all_goals first | rfl | (exfalso; revert h; decide)

/-- What the decoder can do at a legal opcode (R61): an instruction with that opcode whose operand bytes are the ones
read, or OperandOutOfBounds where one of them is missing. -/
theorem decodeOpcode_legal (r : Nat → Option Byte) {op : Byte} (h : op.toNat ≤ 12 ∨ op.toNat = 255) :
    (∃ i, decodeOpcode r op = .ok i ∧ i.opcode = op ∧ ∀ k, 0 < k → k < i.len → r k = (encode i)[k]?) ∨
      (decodeOpcode r op = .error .operandOutOfBounds ∧
        ((op = 3 ∧ r 1 = none) ∨ (op = 4 ∧ (r 1 = none ∨ r 2 = none)))) := by
  rcases legal_opcodes op h with
    rfl | rfl | rfl | rfl | rfl | rfl | rfl | rfl | rfl | rfl | rfl | rfl | rfl | rfl
  case inr.inr.inr.inl =>
    rcases decodeLdi_cases (r := r) with ⟨v, e1, e⟩ | ⟨e1, e⟩
    · refine .inl ⟨_, e, rfl, fun k h0 hk => ?_⟩
      have : k = 1 := by simp only [Instr.len] at hk; omega
      subst this
      exact e1
    · exact .inr ⟨e, .inl ⟨rfl, e1⟩⟩
  case inr.inr.inr.inr.inl =>
    rcases decodeLdar_cases (r := r) with ⟨lo, hi, e1, e2, e⟩ | ⟨e1, e⟩
    · refine .inl ⟨_, e, rfl, fun k h0 hk => ?_⟩
      have : k = 1 ∨ k = 2 := by simp only [Instr.len] at hk; omega
      rcases this with rfl | rfl
      · rw [e1]; simp [encode, Instr.operandBytes, le16_low]
      · rw [e2]; simp [encode, Instr.operandBytes, le16_high]
    · exact .inr ⟨e, .inr ⟨rfl, e1⟩⟩
  all_goals
    refine .inl ⟨_, rfl, rfl, fun k h0 hk => ?_⟩
    simp only [Instr.len] at hk
    omega

theorem decodeWith_none {r : Nat → Option Byte} (h : r 0 = none) : decodeWith r = .error .pcOutOfBounds := by
  simp [decodeWith, fetchByte, h]

theorem decodeWith_some {r : Nat → Option Byte} {op : Byte} (h : r 0 = some op) :
    decodeWith r = decodeOpcode r op := by
  simp [decodeWith, fetchByte, h]

end Sys2Proof

namespace Sys2Proof.Machine

/-! ### The ALU (R73) -/

theorem aluAdd_value (x y : Byte) : (aluAdd x y).1.toNat = (x.toNat + y.toNat) % 256 := by
  simp [aluAdd, BitVec.toNat_add]

theorem aluAdd_carry (x y : Byte) : (aluAdd x y).2 = true ↔ 255 < x.toNat + y.toNat := by
  simp [aluAdd]

theorem aluSub_value (x y : Byte) : (aluSub x y).1.toNat = (256 + x.toNat - y.toNat) % 256 := by
  simp only [aluSub, BitVec.toNat_sub]
  omega

theorem aluSub_borrow (x y : Byte) : (aluSub x y).2 = true ↔ x.toNat < y.toNat := by
  simp [aluSub]

/-- R87: the target is AR, zero-extended. -/
theorem jumpTarget_toNat (s : State) : (jumpTarget s).toNat = s.ar.toNat := by
  simp only [jumpTarget, BitVec.toNat_setWidth]
  omega

/-! ### Memory accesses -/

theorem Memory.byteAt_inBounds {m : Memory} {x : Nat} (h : x < 2048) : m.byteAt x = some (m.get x) :=
  if_pos h

theorem Memory.byteAt_outside {m : Memory} {x : Nat} (h : 2048 ≤ x) : m.byteAt x = none :=
  if_neg (Nat.not_lt.2 h)

/-- What a byte read can do (R40). -/
theorem memReadByte_cases (m : Memory) (x : Nat) :
    (x < 2048 ∧ memReadByte m x = .ok (m.get x)) ∨
      (2048 ≤ x ∧ memReadByte m x = .error (.memoryAccessError x)) := by
  rcases Nat.lt_or_ge x 2048 with h | h
  · exact .inl ⟨h, by simp [memReadByte, Memory.byteAt_inBounds h]⟩
  · exact .inr ⟨h, by simp [memReadByte, Memory.byteAt_outside h]⟩

/-- What a read of two bytes can do (R40). -/
theorem memReadPair_cases (m : Memory) (x : Nat) :
    (x + 1 < 2048 ∧ memReadPair m x = .ok (le16 (m.get x) (m.get (x + 1)))) ∨
      (x = 2047 ∧ memReadPair m x = .error (.memoryAccessError 2048)) ∨
      (2048 ≤ x ∧ memReadPair m x = .error (.memoryAccessError x)) := by
  unfold memReadPair
  rcases memReadByte_cases m x with ⟨h, e⟩ | ⟨h, e⟩
  · rcases memReadByte_cases m (x + 1) with ⟨h', e'⟩ | ⟨h', e'⟩
    · exact .inl ⟨h', by simp [e, e']⟩
    · have : x = 2047 := by omega
      subst this
      exact .inr (.inl ⟨rfl, by simp [e, e']⟩)
  · exact .inr (.inr ⟨h, by simp [e]⟩)

/-- What a byte write can do (R41). -/
theorem memWriteByte_cases (m : Memory) (x : Nat) (v : Byte) :
    (x < 2048 ∧ memWriteByte m x v = .ok (m.set x v)) ∨
      (2048 ≤ x ∧ memWriteByte m x v = .error (.memoryAccessError x)) := by
  rcases Nat.lt_or_ge x 2048 with h | h
  · exact .inl ⟨h, if_pos h⟩
  · exact .inr ⟨h, if_neg (Nat.not_lt.2 h)⟩

/-- The end of a meaning always answers a next state (R67). -/
theorem commit_cases {α : Type} {s t : State} {r : Except RunError α} {w : α → State}
    (h : commit s r w = .next t) :
    (∃ v, r = .ok v ∧ t = w v) ∨ (∃ e, r = .error e ∧ t = s.raiseError e) := by
  cases r with
  | ok v => exact .inl ⟨v, rfl, by simpa [commit] using h.symm⟩
  | error e => exact .inr ⟨e, rfl, by simpa [commit] using h.symm⟩

/-- Fault entry in one record (R95). -/
theorem State.raiseError_eq (s : State) (e : RunError) :
    s.raiseError e = { s with status := .faulted, fault := some { error := e, pc := s.pc } } := rfl

/-- The next-pc selection in one record (R68). -/
theorem State.jumpIf_eq (s : State) (taken : Bool) :
    s.jumpIf taken = { s with pc := if taken then jumpTarget s else s.pc + 1 } := by
  cases taken <;> rfl

/-- The two writes of an ALU result in one record. -/
theorem State.writeAlu_eq (s : State) (r : Byte × Bool) : s.writeAlu r = { s with a := r.1, c := r.2 } := rfl

/-! ### Instruction fetch -/

theorem State.instrByte_inBounds {s : State} {k : Nat} (h : s.pc.toNat + k < 2048) :
    s.instrByte k = some (s.mem.get (s.pc.toNat + k)) := Memory.byteAt_inBounds h

theorem State.instrByte_outside {s : State} {k : Nat} (h : 2048 ≤ s.pc.toNat + k) : s.instrByte k = none :=
  Memory.byteAt_outside h

/-! ### Placing from outside -/

theorem Memory.get_place {m : Memory} {x y : Nat} {v : Byte} (hm : m.wf = true) (hx : x < 2048) :
    (m.place x v).get y = if x = y then v else m.get y := by
  rw [Memory.place, if_pos (show InBounds x from hx)]
  split
  · subst_vars
    exact Memory.get_set_same hm
  · exact Memory.get_set_ne (by assumption)

/-- What `construct` can do (R112). -/
theorem construct_cases (source : Option (List Byte)) :
    (∃ img, source = some img ∧ img.length ≤ 2048 ∧
      construct source = .ok { State.reset with mem := Memory.ofBytes 0 img }) ∨
    (∃ img, source = some img ∧ 2048 < img.length ∧ construct source = .error .tooLarge) ∨
    (source = none ∧ construct source = .error .unreadable) := by
  cases source with
  | none => exact .inr (.inr ⟨rfl, rfl⟩)
  | some img =>
    rcases Nat.lt_or_ge 2048 img.length with h | h
    · exact .inr (.inl ⟨img, rfl, h, if_neg (Nat.not_le.2 h)⟩)
    · exact .inl ⟨img, rfl, h, if_pos h⟩

/-! ### The step -/

/-- Everything a step that answers a next state can do (R66). -/
theorem step_cases {s t : State} (h : step s = .next t) :
    s.status = .running ∧
      ((∃ i, s.decodeAt = .ok i ∧ exec i s = .next t) ∨
        (∃ cause, s.decodeAt = .error cause ∧ t = s.raiseError (.decodeError cause))) := by
  unfold step cycle at h
  split at h
  · refine ⟨by assumption, ?_⟩
    split at h
    · exact .inl ⟨_, by assumption, h⟩
    · exact .inr ⟨_, by assumption, by simpa using h.symm⟩
  · cases h
  · cases h

/-! ### The host's calls -/

theorem hostStep_next {s t : State} (h : step s = .next t) : hostStep s = (t, resultOf t) := by
  simp [hostStep, h]

theorem hostRun_halted {n : Nat} {s : State} (h : s.status = .halted) : hostRun n s = .returned s .ok := by
  cases n <;> simp [hostRun, h]

theorem hostRun_zero {s : State} (h : s.status ≠ .halted) : hostRun 0 s = .stillRunning s := by
  simp [hostRun, h]

/-- One turn of the loop of `run()` (R121). -/
theorem hostRun_succ {n : Nat} {s : State} (h : s.status ≠ .halted) :
    hostRun (n + 1) s =
      if (hostStep s).2 = .ok then hostRun n (hostStep s).1 else .returned (hostStep s).1 (hostStep s).2 := by
  rw [hostRun, if_neg h]
  rcases hostStep s with ⟨t, r | r | r⟩ <;> simp

end Sys2Proof.Machine
end

