-- ==== Sys2Proof/Machine/Assembly.lean ====
section
/-! DEFINITION. The assembly notation of 30_encoding.md R64 (decision D10), from its lines to an image. It is the
spec's own notation and no part of the machine: no statement about the machine rests on it. -/

namespace Sys2Proof.Machine

/-- The length a mnemonic's instruction has (R58). -/
def mnemonicLen : Mnemonic → Nat
  | .LDI => 2
  | .LDAR => 3
  | .NOP | .ADD | .SUB | .LDM | .LDMAR | .STM | .TAB | .TBA | .JMP | .JZ | .JC | .HLT => 1

/-- The number that an operand stands for, given where the labels are. -/
def operandValue (labels : List (Nat × Nat)) : AsmOperand → Option Nat
  | .num n => some n
  | .label l => labels.lookup l

/-- The instruction that a well-formed written instruction stands for (R58, R64); a label's address is a u16. -/
def asmToInstr (labels : List (Nat × Nat)) (i : AsmInstr) : Option Instr :=
  if i.wellFormed then
    match i.mnemonic with
    | .NOP => some .nop
    | .ADD => some .add
    | .SUB => some .sub
    | .LDI => (i.operand.bind (operandValue labels)).map fun n => .ldi (BitVec.ofNat 8 n)
    | .LDAR =>
      (i.operand.bind (operandValue labels)).bind fun n =>
        if n ≤ 65535 then some (.ldar (BitVec.ofNat 16 n)) else none
    | .LDM => some .ldm
    | .LDMAR => some .ldmar
    | .STM => some .stm
    | .TAB => some .tab
    | .TBA => some .tba
    | .JMP => some .jmp
    | .JZ => some .jz
    | .JC => some .jc
    | .HLT => some .hlt
  else none

/-- The address after a line that begins at address `x`. -/
def addressAfter (x : Nat) : AsmLine → Nat
  | .instr i => x + mnemonicLen i.mnemonic
  | .label _ => x
  | .org n => n
  | .byte bs => x + bs.length
  | .word _ => x + 2

/-- Where each label is: "`label:` binds a name to the address of the next byte" (R64), so an `.org` that stands
between the label and that byte counts. -/
def labelAddresses : Nat → List AsmLine → List (Nat × Nat)
  | _, [] => []
  | x, .label l :: rest => (l, nextByteAddress x rest) :: labelAddresses x rest
  | x, line :: rest => labelAddresses (addressAfter x line) rest
where
  /-- The address of the next byte that the lines place, from address `x` on. -/
  nextByteAddress : Nat → List AsmLine → Nat
    | x, [] => x
    | x, .label _ :: rest => nextByteAddress x rest
    | _, .org n :: rest => nextByteAddress n rest
    | x, _ :: _ => x

/-- The bytes that one well-formed line places (R64). -/
def lineBytes (labels : List (Nat × Nat)) (line : AsmLine) : Option (List Byte) :=
  if line.wellFormed then
    match line with
    | .instr i => (asmToInstr labels i).map encode
    | .label _ => some []
    | .org _ => some []
    | .byte bs => some (bs.map (BitVec.ofNat 8))
    | .word w => some [BitVec.ofNat 8 w, BitVec.ofNat 8 (w / 256)]
  else none

/-- Bytes at increasing addresses. -/
def cellsFrom : Nat → List Byte → List Host.Cell
  | _, [] => []
  | x, b :: bs => (x, b) :: cellsFrom (x + 1) bs

/-- Every byte that the lines place, with its address; none if a line is ill-formed or names no label. -/
def placedCells (labels : List (Nat × Nat)) : Nat → List AsmLine → Option (List Host.Cell)
  | _, [] => some []
  | x, line :: rest =>
    match lineBytes labels line, placedCells labels (addressAfter x line) rest with
    | some bs, some cells => some (cellsFrom x bs ++ cells)
    | _, _ => none

/-- Whether no two of the numbers are equal. -/
def noRepeats : List Nat → Bool
  | [] => true
  | x :: xs => !xs.contains x && noRepeats xs

/-- The image of an assembly text: its bytes from address 0, gaps filled with zeros (R64, R112). DESIGN CHOICE, safe:
none where two lines place a byte at one address or bind one label, which R64 does not speak of (log 8). -/
def assemble (lines : List AsmLine) : Option (List Byte) :=
  let labels := labelAddresses 0 lines
  match placedCells labels 0 lines with
  | none => none
  | some cells =>
    if noRepeats (labels.map Prod.fst) && noRepeats (cells.map Prod.fst) then
      let size := cells.foldl (fun n cell => max n (cell.1 + 1)) 0
      some ((List.range size).map fun x => (cells.lookup x).getD 0)
    else none

end Sys2Proof.Machine
end

