-- ==== Sys2Proof/Tests/Slice0.lean ====
section
/-! SUPPORT. Tests of the model, each expected value from the spec (95_test_vectors.md where an id stands in the
comment), and for every obligation with hypotheses a state and operands that meet them. -/

namespace Sys2Proof.Tests

open Sys2Proof.Machine

/-! ## Helpers -/

/-- The reset state with bytes placed from an address and the pc there. -/
def code (x : Nat) (bs : List Byte) : State :=
  { State.reset with mem := Memory.ofBytes x bs, pc := BitVec.ofNat 32 x }

/-- One step answers a next state of which the test holds. -/
def nextIs (s : State) (p : State → Bool) : Bool :=
  match step s with
  | .next t => p t
  | .fault _ => false
  | .refused _ => false

/-- One step faults with this error and leaves A, AR and the pc. -/
def raises (s : State) (e : RunError) : Bool :=
  nextIs s fun t => t.status = .faulted && t.fault = some { error := e, pc := s.pc } && t.pc = s.pc && t.a = s.a &&
    t.ar = s.ar && t.mem = s.mem

/-! ## WellFormed: an ill-formed written instruction for each check (R64) -/

theorem test_wf_ldi_256 : AsmInstr.wellFormed { mnemonic := .LDI, operand := some (.num 256) } = false := by decide
theorem test_wf_ldi_label : AsmInstr.wellFormed { mnemonic := .LDI, operand := some (.label 0) } = false := by decide
theorem test_wf_ldi_bare : AsmInstr.wellFormed { mnemonic := .LDI, operand := none } = false := by decide
theorem test_wf_ldar_65536 : AsmInstr.wellFormed { mnemonic := .LDAR, operand := some (.num 65536) } = false := by
  decide
theorem test_wf_ldar_bare : AsmInstr.wellFormed { mnemonic := .LDAR, operand := none } = false := by decide
theorem test_wf_add_operand : AsmInstr.wellFormed { mnemonic := .ADD, operand := some (.num 1) } = false := by decide
theorem test_wf_byte_256 : AsmLine.wellFormed (.byte [0, 256]) = false := by decide
theorem test_wf_word_65536 : AsmLine.wellFormed (.word 65536) = false := by decide
theorem test_wf_instr_has_no_ill_formed_term : ∀ v : Byte, (Instr.ldi v).wellFormed = true := by decide

/-! ## Decode: each row's word written out from R58 -/

theorem test_decode_nop : decodeTableWord 8 0b00000000 = some .nop := by decide
theorem test_decode_add : decodeTableWord 8 0b00000001 = some .add := by decide
theorem test_decode_sub : decodeTableWord 8 0b00000010 = some .sub := by decide
theorem test_decode_ldi : decodeTableWord 16 0b1010010100000011 = some (.ldi 0xA5) := by decide
theorem test_decode_ldi_opcode_bits_only : decodeTableWord 8 0b00000011 = some (.ldi 0) := by decide
theorem test_decode_ldar : decodeTableWord 24 0b000100100011010000000100 = some (.ldar 0x1234) := by decide
theorem test_decode_ldm : decodeTableWord 8 0b00000101 = some .ldm := by decide
theorem test_decode_ldmar : decodeTableWord 8 0b00000110 = some .ldmar := by decide
theorem test_decode_stm : decodeTableWord 8 0b00000111 = some .stm := by decide
theorem test_decode_tab : decodeTableWord 8 0b00001000 = some .tab := by decide
theorem test_decode_tba : decodeTableWord 8 0b00001001 = some .tba := by decide
theorem test_decode_jmp : decodeTableWord 8 0b00001010 = some .jmp := by decide
theorem test_decode_jz : decodeTableWord 8 0b00001011 = some .jz := by decide
theorem test_decode_jc : decodeTableWord 8 0b00001100 = some .jc := by decide
theorem test_decode_hlt : decodeTableWord 8 0b11111111 = some .hlt := by decide
/-- 13 and 14, the display opcodes, and the ends of the illegal range (R59). -/
theorem test_decode_illegal :
    ([0x0D, 0x0E, 0x0F, 0x10, 0x80, 0xFE].map (decodeTableWord 8)).all (fun o => o.isNone) = true := by decide
/-- R52: `04 34 12`, the low byte first. -/
theorem test_encode_ldar : encode (.ldar 0x1234) = [0x04, 0x34, 0x12] := by decide

/-! ## One step of each instruction -/

/-- NOP-1. -/
theorem test_nop : nextIs { code 10 [0x00] with c := true } (fun t => t.pc = 11 && t.c) = true := by decide
/-- NOP-2. -/
theorem test_nop_at_end : nextIs (code 2047 [0x00]) (fun t => t.pc = 2048 && t.status = .running) = true := by decide
/-- ARITH-3. -/
theorem test_add_wraps :
    nextIs { code 0 [0x01] with a := 255, b := 255 } (fun t => t.a = 254 && t.c && t.b = 255) = true := by decide
/-- ARITH-6: a prior carry is cleared and is no input. -/
theorem test_add_clears_carry :
    nextIs { code 0 [0x01] with a := 1, b := 254, c := true } (fun t => t.a = 255 && !t.c) = true := by decide
/-- ARITH-12. -/
theorem test_sub_borrows :
    nextIs { code 0 [0x02] with a := 3, b := 10 } (fun t => t.a = 249 && t.c && t.b = 10) = true := by decide
/-- ARITH-9. -/
theorem test_sub_equal :
    nextIs { code 0 [0x02] with a := 5, b := 5, c := true } (fun t => t.a = 0 && !t.c) = true := by decide
/-- IMM-3. -/
theorem test_ldi_at_end :
    nextIs (code 2046 [0x03, 0x42]) (fun t => t.a = 0x42 && t.pc = 2048 && t.status = .running) = true := by decide
/-- IMM-4. -/
theorem test_ldi_past_end :
    raises { code 2047 [0x03] with a := 9 } (.decodeError .operandOutOfBounds) = true := by decide
/-- IMM-6. -/
theorem test_ldar : nextIs (code 0 [0x04, 0x34, 0x12]) (fun t => t.ar = 0x1234 && t.pc = 3) = true := by decide
/-- IMM-9. -/
theorem test_ldar_past_end : raises (code 2046 [0x04, 0x00]) (.decodeError .operandOutOfBounds) = true := by decide
/-- MEM-2. -/
theorem test_ldm_last_byte :
    nextIs { code 2046 [0x05, 0x77] with ar := 2047 } (fun t => t.a = 0x77 && t.pc = 2047) = true := by decide
/-- MEM-3. -/
theorem test_ldm_out_of_bounds :
    raises { code 0 [0x05] with ar := 2048, a := 9 } (.memoryAccessError 2048) = true := by decide
/-- MEM-11: an odd address, the low byte first. -/
theorem test_ldmar_odd :
    nextIs { code 0x30 [0x06, 0xCD, 0xAB] with ar := 0x31 } (fun t => t.ar = 0xABCD && t.pc = 0x31) = true := by decide
/-- MEM-8. -/
theorem test_ldmar_neighbour : raises { code 0 [0x06] with ar := 2047 } (.memoryAccessError 2048) = true := by decide
/-- MEM-15: STM over its own opcode byte. -/
theorem test_stm_over_itself :
    nextIs { code 5 [0x07] with ar := 5, a := 0xFF } (fun t => t.mem.get 5 = 0xFF && t.pc = 6) = true := by decide
/-- MEM-14. -/
theorem test_stm_out_of_bounds :
    raises { code 0 [0x07] with ar := 2048, a := 5 } (.memoryAccessError 2048) = true := by decide
/-- COPY-4. -/
theorem test_tab :
    nextIs { code 0 [0x08] with a := 3, b := 9, c := true } (fun t => t.b = 3 && t.a = 3 && t.c) = true := by decide
/-- COPY-2. -/
theorem test_tba : nextIs { code 0 [0x09] with a := 7, b := 5 } (fun t => t.a = 5 && t.b = 5) = true := by decide
/-- CTRL-1. -/
theorem test_jmp : nextIs { code 9 [0x0A] with ar := 5 } (fun t => t.pc = 5) = true := by decide
/-- CTRL-4. -/
theorem test_jmp_outside :
    nextIs { code 9 [0x0A] with ar := 0xFFFF } (fun t => t.pc = 65535 && t.status = .running) = true := by decide
/-- CTRL-7. -/
theorem test_jz_taken : nextIs { code 9 [0x0B] with ar := 14, c := true } (fun t => t.pc = 14) = true := by decide
/-- CTRL-8. -/
theorem test_jz_not_taken : nextIs { code 9 [0x0B] with ar := 14, a := 255 } (fun t => t.pc = 10) = true := by decide
/-- CTRL-9. -/
theorem test_jc_taken : nextIs { code 9 [0x0C] with ar := 11, c := true } (fun t => t.pc = 11) = true := by decide
/-- CTRL-11: A + B is not computed anew. -/
theorem test_jc_not_taken :
    nextIs { code 9 [0x0C] with ar := 11, a := 200, b := 100 } (fun t => t.pc = 10) = true := by decide
/-- HALT-3. -/
theorem test_hlt_at_end : nextIs (code 2047 [0xFF]) (fun t => t.pc = 2048 && t.halted) = true := by decide
/-- HALT-4. -/
theorem test_hlt_keeps :
    nextIs { code 0 [0xFF] with a := 4, c := true } (fun t => t.a = 4 && t.c && t.halted) = true := by decide
/-- DEC-1. -/
theorem test_illegal : raises (code 0 [0x0D]) (.decodeError (.illegalOpcode 0x0D)) = true := by decide
/-- DEC-5: legality comes before the operands. -/
theorem test_illegal_at_end : raises (code 2047 [0x0D]) (.decodeError (.illegalOpcode 0x0D)) = true := by decide
/-- DEC-6. -/
theorem test_pc_out_of_bounds : raises (code 2048 []) (.decodeError .pcOutOfBounds) = true := by decide
/-- HALT-2: InvalidStateError, the state as it was. -/
theorem test_step_after_halt :
    hostStep { code 1 [] with status := .halted } =
      ({ code 1 [] with status := .halted }, .error .invalidState) := by decide
/-- LOAD-4. -/
theorem test_construct :
    (match construct (some [0x01, 0x02]) with
      | .ok s => s.mem.get 0 = 0x01 && s.mem.get 1 = 0x02 && s.mem.get 2 = 0 && s.pc = 0
      | .error _ => false) = true := by decide
/-- The placed instruction is the first that runs after reset (IMM-6's bytes, IMM-1's bytes). -/
theorem test_withFetchWord :
    nextIs (State.reset.withFetchWord 24 0x123404) (fun t => t.ar = 0x1234 && t.pc = 3) = true ∧
      nextIs (State.reset.withFetchWord 8 0x03) (fun t => t.a = 0 && t.pc = 2) = true := by decide
/-- P4: its assembly gives its image. -/
theorem test_assemble_countdown :
    assemble [.instr { mnemonic := .LDI, operand := some (.num 1) }, .instr { mnemonic := .TAB, operand := none },
      .instr { mnemonic := .LDI, operand := some (.num 3) }, .label 0, .instr { mnemonic := .SUB, operand := none },
      .instr { mnemonic := .LDAR, operand := some (.label 1) }, .instr { mnemonic := .JZ, operand := none },
      .instr { mnemonic := .LDAR, operand := some (.label 0) }, .instr { mnemonic := .JMP, operand := none },
      .label 1, .instr { mnemonic := .HLT, operand := none }] =
    some [0x03, 0x01, 0x08, 0x03, 0x03, 0x02, 0x04, 0x0E, 0x00, 0x0B, 0x04, 0x05, 0x00, 0x0A, 0xFF] := by decide
/-- P6: `.org` and `.word`. -/
theorem test_assemble_pointer :
    assemble [.org 0, .instr { mnemonic := .LDAR, operand := some (.num 0x10) },
      .instr { mnemonic := .LDMAR, operand := none }, .instr { mnemonic := .JMP, operand := none },
      .instr { mnemonic := .HLT, operand := none }, .org 0x10, .word 0x14, .org 0x14,
      .instr { mnemonic := .LDI, operand := some (.num 0x63) }, .instr { mnemonic := .HLT, operand := none }] =
    some [0x04, 0x10, 0x00, 0x06, 0x0A, 0xFF, 0, 0, 0, 0, 0, 0, 0, 0, 0, 0, 0x14, 0x00, 0, 0, 0x03, 0x63, 0xFF] := by
  decide

/-! ## Witnesses: the hypotheses of each obligation are met -/

theorem witness_DecodeAfterEncode : (Instr.ldar 0xFFFF).wellFormed = true := by decide

theorem witness_EncodeAfterDecode : decodeBytes [0x04, 0x34, 0x12, 0x0D] = .ok (.ldar 0x1234) := by decide

theorem witness_IllegalOpcodesAreThirteenTo254 :
    decodeBytes [13] = .error (.illegalOpcode 13) ∧ decodeBytes [254] = .error (.illegalOpcode 254) ∧
      decodeBytes [12] = .ok .jc ∧ decodeBytes [255] = .ok .hlt := by decide

theorem witness_OpcodeAloneFixesLength :
    decodeBytes [0x03, 0x00] = .ok (.ldi 0) ∧ decodeBytes [0x04, 0xFF, 0xFF] = .ok (.ldar 0xFFFF) ∧
      decodeBytes [0x00] = .ok .nop ∧ decodeBytes [0xFF, 0, 0] = .ok .hlt := by decide

theorem witness_SixteenBitValuesAreLittleEndian :
    ({ State.reset with ar := 2046 } : State).ar.toNat + 1 < 2048 := by decide

/-- The bytes of a list as the decoder reads them. -/
def reader (bs : List Byte) : Nat → Option Byte := fun k => bs[k]?

theorem witness_DecoderReadsOnlyItsInstruction :
    (decodeWith (reader [0x03, 0x05]) = .ok (.ldi 5) ∧
      (∀ k, k < (Instr.ldi 5).len → reader [0x03, 0x05, 0x09] k = reader [0x03, 0x05] k)) ∧
    ((code 2047 [0xFF]).pc.toNat = 2047 ∧ Instr.hlt.len = 1 ∧
      (code 2047 [0xFF]).opcodeByte = Instr.hlt.opcode) ∧
    (code 2047 [0x03]).decodeAt = .error .operandOutOfBounds ∧
    (code 2046 [0x04, 0x00]).decodeAt = .error .operandOutOfBounds ∧
    (code 2047 [0x04]).decodeAt = .error .operandOutOfBounds := by decide

theorem witness_StepRunsDecodedInstruction :
    ((code 0 [0x03, 0x07]).status = .running ∧ (code 0 [0x03, 0x07]).decodeAt = .ok (.ldi 7) ∧
      (Instr.ldi 7).wellFormed = true) ∧
    ((code 0 [0x0D]).status = .running ∧ (code 0 [0x0D]).decodeAt = .error (.illegalOpcode 0x0D)) ∧
    ({ State.reset with status := .halted } : State).status ≠ .running := by decide

theorem witness_PlacedWordRunsNext :
    State.reset.mem.wf = true ∧ State.reset.status = .running ∧ State.reset.pc.toNat + 2 < 2048 ∧
      decodeTableWord 24 0x123404 = some (.ldar 0x1234) ∧
      ({ State.reset with pc := 2045 } : State).pc.toNat + 2 < 2048 := by decide

/-- A step that fails. -/
theorem witness_FailedStepChangesOnlyStatusAndFault :
    step (code 0 [0x0D]) =
        .next { code 0 [0x0D] with
          status := .faulted, fault := some { error := .decodeError (.illegalOpcode 0x0D), pc := 0 } } ∧
      ({ code 0 [0x0D] with
          status := .faulted
          fault := some { error := .decodeError (.illegalOpcode 0x0D), pc := 0 } } : State).status = .faulted :=
  ⟨rfl, rfl⟩

/-- A failed step of each kind, from a state without a record. -/
theorem witness_RecordFieldsMatchItsKind :
    (code 0 [0xFE]).fault = none ∧
    (∃ t r, step (code 0 [0xFE]) = .next t ∧ t.fault = some r ∧ r.opcode = some 0xFE) ∧
    (∃ t r, step { code 0 [0x06] with ar := 2047 } = .next t ∧ t.fault = some r ∧ r.addr = some 2048) ∧
    (∃ t r, step (code 2048 []) = .next t ∧ t.fault = some r ∧ r.cause = some .pcOutOfBounds) :=
  ⟨rfl, ⟨_, _, rfl, rfl, rfl⟩, ⟨_, _, rfl, rfl, rfl⟩, ⟨_, _, rfl, rfl, rfl⟩⟩

theorem witness_ErrorsAreExactlyTheSpecs :
    ErrorExplained (code 2048 []) (.decodeError .pcOutOfBounds) ∧
    ErrorExplained (code 2047 [13]) (.decodeError (.illegalOpcode 13)) ∧
    ErrorExplained (code 0 [254]) (.decodeError (.illegalOpcode 254)) ∧
    ErrorExplained (code 2047 [0x03]) (.decodeError .operandOutOfBounds) ∧
    ErrorExplained (code 2046 [0x04]) (.decodeError .operandOutOfBounds) ∧
    ErrorExplained (code 2047 [0x04]) (.decodeError .operandOutOfBounds) ∧
    ErrorExplained { code 0 [0x05] with ar := 2048 } (.memoryAccessError 2048) ∧
    ErrorExplained { code 0 [0x07] with ar := 0xFFFF } (.memoryAccessError 65535) ∧
    ErrorExplained { code 0 [0x06] with ar := 2047 } (.memoryAccessError 2048) ∧
    ErrorExplained { code 0 [0x06] with ar := 2048 } (.memoryAccessError 2048) := by
  simp only [ErrorExplained]
  decide

/-- A Running state in which no error is explained. -/
theorem witness_ErrorsAreExactlyTheSpecs_none :
    State.reset.status = .running ∧ ∀ e, ¬ ErrorExplained State.reset e := by
  refine ⟨rfl, fun e => ?_⟩
  rcases e with (_ | op | _) | x
  · intro h
    exact absurd h (by unfold ErrorExplained; decide)
  · intro h
    have h1 := h.2.1
    have h2 := h.2.2.1
    rw [← h1] at h2
    exact absurd h2 (by decide)
  · intro h
    exact absurd h (by unfold ErrorExplained; decide)
  · intro h
    obtain ⟨-, ⟨-, h, -⟩ | ⟨h, -⟩⟩ := h
    · exact absurd h (by decide)
    · exact absurd h (by decide)

theorem witness_RunStatusTransitions :
    step (code 0 [0xFF]) = .next { code 0 [0xFF] with status := .halted, pc := 1 } ∧
      (∃ t, step { code 0 [0x05] with ar := 2048 } = .next t ∧ t.status = .faulted) ∧
      (∃ t, step { code 0 [0x06] with ar := 2047 } = .next t ∧ t.status = .faulted) ∧
      ({ State.reset with status := .faulted } : State).status ≠ .running ∧
      construct (some []) = .ok State.reset :=
  ⟨rfl, ⟨_, rfl, rfl⟩, ⟨_, rfl, rfl⟩, by decide, rfl⟩

theorem witness_FetchesOpcode :
    (code 2047 [0x00]).FetchesOpcode 0x00 ∧ (code 2047 [0x00]).pc.toNat = 2047 ∧
    (code 0 [0x01]).FetchesOpcode 0x01 ∧ (code 0 [0x02]).FetchesOpcode 0x02 ∧
    (code 0 [0x08]).FetchesOpcode 0x08 ∧ (code 0 [0x09]).FetchesOpcode 0x09 ∧
    (code 2047 [0xFF]).FetchesOpcode 0xFF := by decide

theorem witness_LdiResult :
    ((code 2046 [0x03, 0x42]).FetchesOpcode 0x03 ∧ (code 2046 [0x03, 0x42]).pc.toNat + 1 < 2048) ∧
    ((code 2047 [0x03]).FetchesOpcode 0x03 ∧ (code 2047 [0x03]).pc.toNat + 1 ≥ 2048) := by decide

theorem witness_LdarResult :
    ((code 2045 [0x04, 0x00, 0x01]).FetchesOpcode 0x04 ∧ (code 2045 [0x04, 0x00, 0x01]).pc.toNat + 2 < 2048) ∧
    ((code 2046 [0x04]).FetchesOpcode 0x04 ∧ (code 2046 [0x04]).pc.toNat + 2 ≥ 2048) := by decide

theorem witness_LdmResult :
    ({ code 0 [0x05] with ar := 2047 } : State).ar.toNat < 2048 ∧
    ({ code 0 [0x05] with ar := 2048 } : State).ar.toNat ≥ 2048 ∧ (code 0 [0x05]).FetchesOpcode 0x05 := by decide

theorem witness_LdmarResult :
    ({ code 0 [0x06] with ar := 2046 } : State).ar.toNat ≤ 2046 ∧
    ({ code 0 [0x06] with ar := 2047 } : State).ar.toNat = 2047 ∧
    ({ code 0 [0x06] with ar := 2048 } : State).ar.toNat ≥ 2048 ∧ (code 0 [0x06]).FetchesOpcode 0x06 := by decide

theorem witness_StmResult :
    (code 0 [0x07]).mem.wf = true ∧
    effectiveAddress { code 0 [0x07] with ar := 2047 } < 2048 ∧
    effectiveAddress { code 0 [0x07] with ar := 2048 } ≥ 2048 ∧ (code 0 [0x07]).FetchesOpcode 0x07 := by decide

theorem witness_TabResult : Instr.tba ≠ .tab ∧ ∃ t, exec .tba State.reset = .next t := ⟨by decide, _, rfl⟩

theorem witness_Jumps :
    (({ code 0 [0x0A] with ar := 2048 } : State).FetchesOpcode 0x0A ∧
      ({ code 0 [0x0A] with ar := 2048 } : State).ar.toNat ≥ 2048) ∧
    (({ code 0 [0x0B] with ar := 2048 } : State).FetchesOpcode 0x0B ∧
      ({ code 0 [0x0B] with ar := 2048 } : State).a.toNat = 0 ∧
      ({ code 0 [0x0B] with ar := 2048 } : State).ar.toNat ≥ 2048) ∧
    (({ code 0 [0x0C] with ar := 2048, c := true } : State).FetchesOpcode 0x0C ∧
      ({ code 0 [0x0C] with ar := 2048, c := true } : State).c = true ∧
      ({ code 0 [0x0C] with ar := 2048, c := true } : State).ar.toNat ≥ 2048) := by decide

/-- HLT answers a next state, that state is Halted, and a run over it returns Ok. -/
theorem witness_HltResult :
    (∃ t, exec .hlt (code 0 [0xFF]) = .next t ∧ t.status = .halted) ∧
    (∃ t, RunReturns (code 0 [0xFF]) t .ok) ∧ (code 0 [0xFF]).status ≠ .halted :=
  ⟨⟨_, rfl, rfl⟩, ⟨_, 1, rfl⟩, by decide⟩

/-- An instruction of each kind that the "who reads and writes" statements speak of answers a next state: of A and C,
and of B, AR and memory. -/
theorem witness_WhoReadsAndWrites :
    (∃ t, exec .add { State.reset with a := 255, b := 1 } = .next t) ∧ (∃ t, exec .tab State.reset = .next t) ∧
    (∃ t, exec (.ldi 7) State.reset = .next t) ∧ (∃ t, exec (.ldar 7) State.reset = .next t) ∧
    (∃ t, exec .ldm { State.reset with ar := 2047 } = .next t ∧ t.status ≠ .faulted) ∧
    (∃ t, exec .ldmar { State.reset with ar := 2046 } = .next t) ∧
    ({ State.reset with ar := 2046 } : State).ar.toNat + 1 < 2048 ∧
    (∃ t, exec .stm { State.reset with a := 1 } = .next t) ∧ (∃ t, exec .nop State.reset = .next t) :=
  ⟨⟨_, rfl⟩, ⟨_, rfl⟩, ⟨_, rfl⟩, ⟨_, rfl⟩, ⟨_, rfl, by decide⟩, ⟨_, rfl⟩, by decide, ⟨_, rfl⟩, ⟨_, rfl⟩⟩

/-- A memory that agrees with another at the bytes LDM and LDMAR read, and differs elsewhere. -/
theorem witness_WhoReadsMemory :
    Memory.get [(5, 1)] State.reset.ar.toNat = State.reset.mem.get State.reset.ar.toNat ∧
    Memory.get [(5, 1)] (State.reset.ar.toNat + 1) = State.reset.mem.get (State.reset.ar.toNat + 1) ∧
    (∃ t, exec .ldmar State.reset = .next t) := ⟨rfl, rfl, _, rfl⟩

/-- A step that succeeds, one whose jump is taken, and one that fails. -/
theorem witness_NextPcOfAStep :
    (∃ t, step (code 2045 [0x04, 0x00, 0x01]) = .next t ∧ t.status ≠ .faulted) ∧
    (∃ t, step { code 9 [0x0A] with ar := 0xFFFF } = .next t ∧ t.status ≠ .faulted) ∧
    (∃ t, step (code 2048 []) = .next t ∧ t.status = .faulted) :=
  ⟨⟨_, rfl, by decide⟩, ⟨_, rfl, by decide⟩, ⟨_, rfl, rfl⟩⟩

/-- A state that stores, and the state that loads. -/
theorem witness_StoredByteLoadsBack :
    ({ code 0 [0x07] with ar := 2047, a := 5 } : State).mem.wf = true ∧
    ({ code 0 [0x07] with ar := 2047, a := 5 } : State).ar.toNat < 2048 ∧
    exec .stm { code 0 [0x07] with ar := 2047, a := 5 } =
      .next { State.reset with a := 5, ar := 2047, pc := 1, mem := [(0, 0x07), (2047, 5)] } :=
  ⟨by decide, by decide, rfl⟩

/-- A store to the byte after the STM, and the next fetch there. -/
theorem witness_StoredCodeIsFetched :
    ({ code 0 [0x07] with ar := 1, a := 0xFF } : State).mem.wf = true ∧
    ({ code 0 [0x07] with ar := 1, a := 0xFF } : State).FetchesOpcode 0x07 ∧
    step { code 0 [0x07] with ar := 1, a := 0xFF } =
      .next { State.reset with a := 0xFF, ar := 1, pc := 1, mem := [(0, 0x07), (1, 0xFF)] } ∧
    Trace { State.reset with a := 0xFF, ar := 1, pc := 1, mem := [(0, 0x07), (1, 0xFF)] } []
      { State.reset with a := 0xFF, ar := 1, pc := 1, mem := [(0, 0x07), (1, 0xFF)] } ∧
    (1 : PcWord).toNat + 0 = (1 : AddrWord).toNat :=
  ⟨by decide, by decide, rfl, .nil _, rfl⟩

/-- A run of one step, which stores; its starting memory is in the canonical form. -/
theorem witness_MemoryHoldsLastStore :
    ∃ t, (code 0 [0x07]).mem.wf = true ∧
      Trace { code 0 [0x07] with ar := 2047, a := 5 } [{ code 0 [0x07] with ar := 2047, a := 5 }] t :=
  ⟨_, by decide, .cons rfl (.nil _)⟩

/-- A run of one step, an ADD that carries. -/
theorem witness_CarryIsOfLastArithmetic :
    ∃ t, Trace { code 0 [0x01] with a := 255, b := 1 } [{ code 0 [0x01] with a := 255, b := 1 }] t :=
  ⟨_, .cons rfl (.nil _)⟩

theorem witness_MemoriesThatReadAlikeAreEqual :
    Memory.wf [(0, 1), (2047, 2)] = true ∧ (Memory.set [(2047, 2)] 0 1).wf = true ∧
    Memory.wf [(1, 1), (0, 2)] = false ∧ Memory.wf [(0, 0)] = false ∧ Memory.wf [(2048, 1)] = false := by decide

/-- A state that meets the invariant and steps: not the reset state, which an obligation is about. -/
theorem witness_StepKeepsInvariant :
    (code 5 [0x0D]).Inv ∧ ∃ t, step (code 5 [0x0D]) = .next t :=
  ⟨{ memWf := by decide
     pcBound := by decide
     faultIff := by decide
     faultTrue := fun r h => by cases h
     haltedAfterHlt := fun h => by cases h }, _, rfl⟩

theorem witness_ReachableStatesMeetInvariant : ∃ t, Reachable t ∧ t.status = .halted :=
  ⟨_, .stepped (.constructed (source := some [0xFF]) rfl) rfl, rfl⟩

theorem witness_ConstructPlacesTheImage :
    ([] : List Byte).length ≤ 2048 ∧ (List.replicate 2048 (1 : Byte)).length ≤ 2048 ∧
    (List.replicate 2049 (1 : Byte)).length > 2048 := by
  rw [List.length_replicate, List.length_replicate]
  decide

/-- A run that returns Ok, one that returns an error, and a jump to itself. -/
theorem witness_RunHasThreeOutcomes :
    (∃ t, RunReturns (code 0 [0xFF]) t .ok) ∧ (∃ t e, RunReturns (code 0 [0x0D]) t (.error e)) ∧
    (code 0 [0x0A]).FetchesOpcode 0x0A ∧ (code 0 [0x0A]).ar.toNat = (code 0 [0x0A]).pc.toNat :=
  ⟨⟨_, 1, rfl⟩, ⟨_, _, 1, rfl⟩, by decide, rfl⟩

end Sys2Proof.Tests
end

/-! ## What execution can do, said once, and the statements about the architectural state (10_state.md)

Every meaning either completes or raises a MemoryAccessError from the state at its start (R67). `accessError` is the
error, `completed` the state where there is none; `exec_cases` says that `exec` does nothing else. -/

namespace Sys2Proof

theorem Instr.len_le_three (i : Instr) : i.len ≤ 3 := by
  cases i <;> simp [Instr.len]

end Sys2Proof

namespace Sys2Proof.Machine

/-- The error of an instruction's data access (R82, R83, R84): it names the first address outside the bank. -/
def accessError (i : Instr) (s : State) : Option RunError :=
  match i with
  | .ldm | .stm => if s.ar.toNat < 2048 then none else some (.memoryAccessError s.ar.toNat)
  | .ldmar => if s.ar.toNat + 1 < 2048 then none else some (.memoryAccessError (max 2048 s.ar.toNat))
  | _ => none

/-- All the writes of an instruction whose data access is inside the bank. -/
def completed (i : Instr) (s : State) : State :=
  match i with
  | .nop => s.advance 1
  | .add => (s.writeAlu (aluAdd s.a s.b)).advance 1
  | .sub => (s.writeAlu (aluSub s.a s.b)).advance 1
  | .ldi imm8 => (s.setA imm8).advance 2
  | .ldar imm16 => (s.setAr imm16).advance 3
  | .ldm => (s.setA (s.mem.get s.ar.toNat)).advance 1
  | .ldmar => (s.setAr (le16 (s.mem.get s.ar.toNat) (s.mem.get (s.ar.toNat + 1)))).advance 1
  | .stm => (s.setMem (s.mem.set s.ar.toNat s.a)).advance 1
  | .tab => (s.setB s.a).advance 1
  | .tba => (s.setA s.b).advance 1
  | .jmp => s.jumpIf true
  | .jz => s.jumpIf (decide (s.a = 0))
  | .jc => s.jumpIf s.c
  | .hlt => (s.setStatus .halted).advance 1

/-! ### The data access -/

theorem accessError_isSome_iff (i : Instr) (s : State) :
    (accessError i s).isSome = true ↔
      ((i = .ldm ∨ i = .stm) ∧ 2048 ≤ s.ar.toNat) ∨ (i = .ldmar ∧ 2048 ≤ s.ar.toNat + 1) := by
  cases i with
  | ldm | stm | ldmar =>
    simp only [accessError]
    split <;> simp <;> omega
  | _ => simp [accessError]

/-- The instructions that do not use AR as a data address raise no access error. -/
theorem accessError_eq_none {i : Instr} (s : State) (hldm : i ≠ .ldm) (hldmar : i ≠ .ldmar) (hstm : i ≠ .stm) :
    accessError i s = none := by
  cases i with
  | ldm => exact absurd rfl hldm
  | ldmar => exact absurd rfl hldmar
  | stm => exact absurd rfl hstm
  | _ => rfl

/-- Whether an access is in bounds depends on AR alone. -/
theorem accessError_congr (i : Instr) {s s' : State} (h : s'.ar = s.ar) : accessError i s' = accessError i s := by
  simp only [accessError, h]

/-! ### `exec` is `accessError` and `completed` -/

theorem exec_ldm (s : State) :
    exec .ldm s = .next (((accessError .ldm s).map s.raiseError).getD (completed .ldm s)) := by
  change commit s (memReadByte s.mem s.ar.toNat) _ = _
  rcases memReadByte_cases s.mem s.ar.toNat with ⟨h, e⟩ | ⟨h, e⟩
  · simp [accessError, completed, commit, e, h]
  · simp [accessError, commit, e, Nat.not_lt.2 h]

theorem exec_ldmar (s : State) :
    exec .ldmar s = .next (((accessError .ldmar s).map s.raiseError).getD (completed .ldmar s)) := by
  change commit s (memReadPair s.mem s.ar.toNat) _ = _
  rcases memReadPair_cases s.mem s.ar.toNat with ⟨h, e⟩ | ⟨h, e⟩ | ⟨h, e⟩
  · simp [accessError, completed, commit, e, h]
  · rw [e]
    simp [accessError, commit, h]
  · have hout : ¬ s.ar.toNat + 1 < 2048 := by omega
    simp [accessError, commit, e, hout, Nat.max_eq_right h]

theorem exec_stm (s : State) :
    exec .stm s = .next (((accessError .stm s).map s.raiseError).getD (completed .stm s)) := by
  change commit s (memWriteByte s.mem s.ar.toNat s.a) _ = _
  rcases memWriteByte_cases s.mem s.ar.toNat s.a with ⟨h, e⟩ | ⟨h, e⟩
  · simp [accessError, completed, commit, e, h]
  · simp [accessError, commit, e, Nat.not_lt.2 h]

/-- Every meaning answers a next state: the completed one, or fault entry where its access is out of bounds (R67). -/
theorem exec_eq (i : Instr) (s : State) :
    exec i s = .next (((accessError i s).map s.raiseError).getD (completed i s)) := by
  cases i with
  | ldm => exact exec_ldm s
  | ldmar => exact exec_ldmar s
  | stm => exact exec_stm s
  | _ => rfl

theorem exec_of_accessError_none {i : Instr} {s : State} (h : accessError i s = none) :
    exec i s = .next (completed i s) := by
  simp [exec_eq, h]

theorem exec_of_accessError_some {i : Instr} {s : State} {e : RunError} (h : accessError i s = some e) :
    exec i s = .next (s.raiseError e) := by
  simp [exec_eq, h]

theorem exec_cases {i : Instr} {s t : State} (h : exec i s = .next t) :
    (accessError i s = none ∧ t = completed i s) ∨ (∃ e, accessError i s = some e ∧ t = s.raiseError e) := by
  cases hacc : accessError i s with
  | none => exact .inl ⟨rfl, by simpa [exec_of_accessError_none hacc] using h.symm⟩
  | some e => exact .inr ⟨e, rfl, by simpa [exec_of_accessError_some hacc] using h.symm⟩

/-- An instruction without a data access completes. -/
theorem exec_next_of_no_access {i : Instr} {s t : State} (h : exec i s = .next t) (hacc : accessError i s = none) :
    t = completed i s := by
  simpa [exec_of_accessError_none hacc] using h.symm

/-- Two runs of one instruction from states with the same access error are related as soon as fault entry and the
completed states are. -/
theorem exec_related {R : State → State → Prop} {i : Instr} {s s' t : State} (h : exec i s = .next t)
    (hacc : accessError i s' = accessError i s)
    (hraise : ∀ e, accessError i s = some e → R (s'.raiseError e) (s.raiseError e))
    (hcomp : R (completed i s') (completed i s)) : ∃ t', exec i s' = .next t' ∧ R t' t := by
  rcases exec_cases h with ⟨hnone, rfl⟩ | ⟨e, hsome, rfl⟩
  · exact ⟨_, exec_of_accessError_none (hacc.trans hnone), hcomp⟩
  · exact ⟨_, exec_of_accessError_some (hacc.trans hsome), hraise e hsome⟩

/-! ### The frame of `completed`, field by field -/

theorem completed_a {i : Instr} (s : State) (hadd : i ≠ .add) (hsub : i ≠ .sub) (hldi : ∀ v, i ≠ .ldi v)
    (hldm : i ≠ .ldm) (htba : i ≠ .tba) : (completed i s).a = s.a := by
  cases i with
  | add => exact absurd rfl hadd
  | sub => exact absurd rfl hsub
  | ldi v => exact absurd rfl (hldi v)
  | ldm => exact absurd rfl hldm
  | tba => exact absurd rfl htba
  | _ => simp [completed]

theorem completed_b {i : Instr} (s : State) (htab : i ≠ .tab) : (completed i s).b = s.b := by
  cases i with
  | tab => exact absurd rfl htab
  | _ => simp [completed]

theorem completed_ar {i : Instr} (s : State) (hldar : ∀ v, i ≠ .ldar v) (hldmar : i ≠ .ldmar) :
    (completed i s).ar = s.ar := by
  cases i with
  | ldar v => exact absurd rfl (hldar v)
  | ldmar => exact absurd rfl hldmar
  | _ => simp [completed]

theorem completed_c {i : Instr} (s : State) (hadd : i ≠ .add) (hsub : i ≠ .sub) : (completed i s).c = s.c := by
  cases i with
  | add => exact absurd rfl hadd
  | sub => exact absurd rfl hsub
  | _ => simp [completed]

theorem completed_status (i : Instr) (s : State) :
    (completed i s).status = if i = .hlt then .halted else s.status := by
  cases i <;> simp [completed]

theorem completed_fault (i : Instr) (s : State) : (completed i s).fault = s.fault := by
  cases i <;> simp [completed]

theorem completed_mem {i : Instr} (s : State) (hstm : i ≠ .stm) : (completed i s).mem = s.mem := by
  cases i with
  | stm => exact absurd rfl hstm
  | _ => simp [completed]

/-! ### The next pc (R68) -/

/-- The jumps that are taken (R88, R89, R90). -/
def JumpTaken (i : Instr) (s : State) : Prop :=
  i = .jmp ∨ (i = .jz ∧ s.a.toNat = 0) ∨ (i = .jc ∧ s.c = true)

theorem completed_pc_of_taken {i : Instr} {s : State} (h : JumpTaken i s) : (completed i s).pc = jumpTarget s := by
  rcases h with rfl | ⟨rfl, ha⟩ | ⟨rfl, hc⟩
  · simp [completed]
  · have ha : s.a = 0 := BitVec.eq_of_toNat_eq ha
    simp [completed, ha]
  · simp [completed, hc]

theorem completed_pc_of_not_taken {i : Instr} {s : State} (h : ¬ JumpTaken i s) :
    (completed i s).pc = s.pc + BitVec.ofNat 32 i.len := by
  cases i with
  | jmp => exact absurd (.inl rfl) h
  | jz =>
    have ha : ¬ s.a = 0#8 := fun ha => h (.inr (.inl ⟨rfl, by simp [ha]⟩))
    simp [completed, ha, Instr.len]
  | jc =>
    have hc : s.c ≠ true := fun hc => h (.inr (.inr ⟨rfl, hc⟩))
    simp [completed, hc, Instr.len]
  | _ => simp [completed, Instr.len]

/-- An instruction decodes only where its opcode byte is in the bank. -/
theorem State.pc_lt_of_decodeAt_ok {s : State} {i : Instr} (h : s.decodeAt = .ok i) : s.pc.toNat < 2048 := by
  by_contra hpc
  have herr : s.decodeAt = .error .pcOutOfBounds := decodeWith_none (State.instrByte_outside (by omega))
  rw [h] at herr
  cases herr

/-- The pc plus a length does not wrap where something is fetched (R21). -/
theorem toNat_pc_add_len {pc : PcWord} (i : Instr) (h : pc.toNat < 2048) :
    (pc + BitVec.ofNat 32 i.len).toNat = pc.toNat + i.len := by
  have hlen := Instr.len_le_three i
  rw [BitVec.toNat_add, BitVec.toNat_ofNat]
  omega

/-! ### The step -/

theorem step_of_not_running {s : State} (h : s.status ≠ .running) : step s = .fault .invalidState := by
  cases hs : s.status with
  | running => exact absurd hs h
  | halted | faulted => simp [step, cycle, hs]

/-- A step ends by a decode error, an access error or the completed instruction (R66). -/
theorem step_outcomes {s t : State} (h : step s = .next t) :
    s.status = .running ∧
      ((∃ cause, s.decodeAt = .error cause ∧ t = s.raiseError (.decodeError cause)) ∨
        (∃ i e, s.decodeAt = .ok i ∧ accessError i s = some e ∧ t = s.raiseError e) ∨
        (∃ i, s.decodeAt = .ok i ∧ accessError i s = none ∧ t = completed i s)) := by
  obtain ⟨hrun, ⟨i, hdec, hexec⟩ | hcause⟩ := step_cases h
  · rcases exec_cases hexec with ⟨hacc, ht⟩ | ⟨e, hacc, ht⟩
    · exact ⟨hrun, .inr (.inr ⟨i, hdec, hacc, ht⟩)⟩
    · exact ⟨hrun, .inr (.inl ⟨i, e, hdec, hacc, ht⟩)⟩
  · exact ⟨hrun, .inl hcause⟩

theorem completed_status_ne_faulted {i : Instr} {s : State} (h : s.status = .running) :
    (completed i s).status ≠ .faulted := by
  rw [completed_status, h]
  split <;> decide

/-! ### Construction (R29, R112, R113) -/

theorem construct_of_fits {img : List Byte} (h : img.length ≤ 2048) :
    construct (some img) = .ok { State.reset with mem := Memory.ofBytes 0 img } := if_pos h

theorem construct_of_too_large {img : List Byte} (h : 2048 < img.length) :
    construct (some img) = .error .tooLarge := if_neg (Nat.not_le.2 h)

/-- A machine is produced from an image that fits alone, and it is the reset state but for its memory (R112). -/
theorem construct_ok {source : Option (List Byte)} {s : State} (h : construct source = .ok s) :
    ∃ img, source = some img ∧ img.length ≤ 2048 ∧ s = { State.reset with mem := Memory.ofBytes 0 img } := by
  rcases construct_cases source with ⟨img, hsrc, hlen, e⟩ | ⟨_, -, -, e⟩ | ⟨-, e⟩
  · exact ⟨img, hsrc, hlen, by simpa [e] using h.symm⟩
  · simp [e] at h
  · simp [e] at h

/-! ### The run-status machine (R26) -/

theorem step_halted_iff {s t : State} (h : step s = .next t) : t.status = .halted ↔ s.decodeAt = .ok .hlt := by
  obtain ⟨hrun, ⟨cause, hdec, rfl⟩ | ⟨i, e, hdec, hacc, rfl⟩ | ⟨i, hdec, hacc, rfl⟩⟩ := step_outcomes h
  · simp [hdec]
  · have hne : i ≠ .hlt := by
      rintro rfl
      cases hacc
    simp [hdec, hne]
  · by_cases hi : i = .hlt <;> simp [hdec, completed_status, hi, hrun]

theorem step_faulted_iff {s t : State} (h : step s = .next t) :
    t.status = .faulted ↔
      (∃ cause, s.decodeAt = .error cause) ∨ ∃ i, s.decodeAt = .ok i ∧ (accessError i s).isSome = true := by
  obtain ⟨hrun, ⟨cause, hdec, rfl⟩ | ⟨i, e, hdec, hacc, rfl⟩ | ⟨i, hdec, hacc, rfl⟩⟩ := step_outcomes h
  · simp [hdec]
  · simp [hdec, hacc]
  · simp [hdec, hacc, completed_status_ne_faulted hrun]

/-- Settles O14: the outcomes of a step, with `accessError` read as the bounds of LDM, STM and LDMAR. -/
theorem runStatusTransitions : Obligations.RunStatusTransitions := by
  refine ⟨fun s t h => ⟨(step_cases h).1, step_halted_iff h, ?_⟩, fun s hs => ?_, fun source s h => ?_, fun s => ?_⟩
  · rw [step_faulted_iff h]
    refine or_congr_right ?_
    cases hdec : s.decodeAt with
    | error cause => simp
    | ok i => simp [accessError_isSome_iff]
  · have hstep := step_of_not_running hs
    exact ⟨fun t ht => by simp [hstep] at ht, by simp [hostStep, hstep]⟩
  · obtain ⟨img, -, -, rfl⟩ := construct_ok h
    rfl
  · simp [State.halted]

/-! ### Who reads and writes a register (R13, R14, R22, R24) -/

/-- A field that fault entry keeps is as before after every instruction whose completion keeps it. -/
theorem exec_keeps {α : Type} {f : State → α} {i : Instr} {s t : State} (h : exec i s = .next t)
    (hraise : ∀ e, f (s.raiseError e) = f s) (hcomp : f (completed i s) = f s) : f t = f s := by
  rcases exec_cases h with ⟨-, rfl⟩ | ⟨e, -, rfl⟩
  · exact hcomp
  · exact hraise e

/-- What A holds matters to ADD, SUB, STM, TAB and JZ alone. -/
theorem completed_ignores_a {i : Instr} (s : State) (v : Byte) (hadd : i ≠ .add) (hsub : i ≠ .sub) (hstm : i ≠ .stm)
    (htab : i ≠ .tab) (hjz : i ≠ .jz) :
    { completed i { s with a := v } with a := (completed i s).a } = completed i s := by
  cases i with
  | add => exact absurd rfl hadd
  | sub => exact absurd rfl hsub
  | stm => exact absurd rfl hstm
  | tab => exact absurd rfl htab
  | jz => exact absurd rfl hjz
  | jc => simp [completed, State.jumpIf_eq, jumpTarget]
  | _ => rfl

/-- What B holds matters to ADD, SUB and TBA alone. -/
theorem completed_ignores_b {i : Instr} (s : State) (v : Byte) (hadd : i ≠ .add) (hsub : i ≠ .sub) (htba : i ≠ .tba) :
    { completed i { s with b := v } with b := (completed i s).b } = completed i s := by
  cases i with
  | add => exact absurd rfl hadd
  | sub => exact absurd rfl hsub
  | tba => exact absurd rfl htba
  | jz | jc => simp [completed, State.jumpIf_eq, jumpTarget]
  | _ => rfl

/-- What AR holds matters to the memory instructions and the jumps alone. -/
theorem completed_ignores_ar {i : Instr} (s : State) (v : AddrWord) (hldm : i ≠ .ldm) (hldmar : i ≠ .ldmar)
    (hstm : i ≠ .stm) (hjmp : i ≠ .jmp) (hjz : i ≠ .jz) (hjc : i ≠ .jc) :
    { completed i { s with ar := v } with ar := (completed i s).ar } = completed i s := by
  cases i with
  | ldm => exact absurd rfl hldm
  | ldmar => exact absurd rfl hldmar
  | stm => exact absurd rfl hstm
  | jmp => exact absurd rfl hjmp
  | jz => exact absurd rfl hjz
  | jc => exact absurd rfl hjc
  | _ => rfl

/-- What C holds matters to JC alone: the ALU has no carry-in. -/
theorem completed_ignores_c {i : Instr} (s : State) (v : Bool) (hjc : i ≠ .jc) :
    { completed i { s with c := v } with c := (completed i s).c } = completed i s := by
  cases i with
  | jc => exact absurd rfl hjc
  | jz => simp [completed, State.jumpIf_eq, jumpTarget]
  | _ => rfl

/-- Settles O29, from `completed` read at A and its independence of A. -/
theorem whoReadsAndWritesA : Obligations.WhoReadsAndWritesA := by
  intro i s t h
  refine ⟨?_, ?_, ?_, ?_, ?_, ?_, ?_⟩
  · rintro rfl
    simp [exec_next_of_no_access h rfl, completed]
  · rintro rfl
    simp [exec_next_of_no_access h rfl, completed]
  · rintro v rfl
    simp [exec_next_of_no_access h rfl, completed]
  · rintro rfl hok
    rcases exec_cases h with ⟨-, rfl⟩ | ⟨e, -, rfl⟩
    · simp [completed]
    · exact absurd rfl hok
  · rintro rfl
    simp [exec_next_of_no_access h rfl, completed]
  · intro hadd hsub hldi hldm htba
    exact exec_keeps h (fun _ => rfl) (completed_a s hadd hsub hldi hldm htba)
  · intro hadd hsub hstm htab hjz v
    exact exec_related (R := fun t' t => { t' with a := t.a } = t) h (accessError_congr i rfl) (fun _ _ => rfl)
      (completed_ignores_a s v hadd hsub hstm htab hjz)

/-- Settles O30, from `completed` read at B and its independence of B. -/
theorem whoReadsAndWritesB : Obligations.WhoReadsAndWritesB := by
  intro i s t h
  refine ⟨?_, fun htab => exec_keeps h (fun _ => rfl) (completed_b s htab), fun hadd hsub htba v => ?_⟩
  · rintro rfl
    simp [exec_next_of_no_access h rfl, completed]
  · exact exec_related (R := fun t' t => { t' with b := t.b } = t) h (accessError_congr i rfl) (fun _ _ => rfl)
      (completed_ignores_b s v hadd hsub htba)

/-- Settles O31: the two bytes of LDMAR's value are those of `le16`; an instruction that does not read AR has no access
error for AR to decide. -/
theorem whoReadsAndWritesAr : Obligations.WhoReadsAndWritesAr := by
  intro i s t h
  refine ⟨?_, ?_, fun hldar hldmar => exec_keeps h (fun _ => rfl) (completed_ar s hldar hldmar), ?_⟩
  · rintro v rfl
    simp [exec_next_of_no_access h rfl, completed]
  · rintro rfl hin
    rw [exec_next_of_no_access h (if_pos hin)]
    exact ⟨le16_low _ _, le16_high _ _⟩
  · intro hldm hldmar hstm hjmp hjz hjc v
    have hacc (u : State) : accessError i u = none := accessError_eq_none u hldm hldmar hstm
    exact exec_related (R := fun t' t => { t' with ar := t.ar } = t) h ((hacc _).trans (hacc s).symm)
      (fun _ _ => rfl) (completed_ignores_ar s v hldm hldmar hstm hjmp hjz hjc)

/-- Settles O32, from the ALU's carry-outs and the independence of `completed` from C. -/
theorem whoReadsAndWritesC : Obligations.WhoReadsAndWritesC := by
  refine ⟨fun i s t h => ⟨?_, ?_, ?_, ?_⟩, rfl⟩
  · rintro rfl
    rw [exec_next_of_no_access h rfl]
    exact aluAdd_carry s.a s.b
  · rintro rfl
    rw [exec_next_of_no_access h rfl]
    exact aluSub_borrow s.a s.b
  · intro hadd hsub
    exact exec_keeps h (fun _ => rfl) (completed_c s hadd hsub)
  · intro hjc v
    exact exec_related (R := fun t' t => { t' with c := t.c } = t) h (accessError_congr i rfl) (fun _ _ => rfl)
      (completed_ignores_c s v hjc)

/-- Settles O35: a failed step is fault entry, which keeps the pc; a completed one decoded inside the bank, so adding
the length does not wrap. -/
theorem nextPcOfAStep : Obligations.NextPcOfAStep := by
  intro s t h
  obtain ⟨hrun, ⟨cause, -, rfl⟩ | ⟨i, e, -, -, rfl⟩ | ⟨i, hdec, -, rfl⟩⟩ := step_outcomes h
  · exact ⟨fun _ => rfl, fun hok => absurd rfl hok⟩
  · exact ⟨fun _ => rfl, fun hok => absurd rfl hok⟩
  · refine ⟨fun hf => absurd hf (completed_status_ne_faulted hrun), fun _ => ⟨i, hdec, fun htaken => ?_, fun hseq => ?_⟩⟩
    · rw [completed_pc_of_taken htaken, jumpTarget_toNat]
    · rw [completed_pc_of_not_taken hseq, toNat_pc_add_len i (State.pc_lt_of_decodeAt_ok hdec)]

/-! ### What construction places (R112) -/

/-- Settles O45, from what placed bytes read as. -/
theorem constructPlacesTheImage : Obligations.ConstructPlacesTheImage := by
  refine ⟨fun img h => ⟨_, construct_of_fits h, fun x _ => ?_, rfl, rfl, rfl, rfl, rfl, rfl, rfl⟩,
    fun img h => construct_of_too_large h, rfl⟩
  have hget : (Memory.ofBytes 0 img).get x = img.getD x 0 := by
    simpa using Memory.get_ofBytes (x := 0) (y := x) (bs := img) (by omega)
  split
  · next hx => exact hget.trans (List.getD_eq_getElem _ _ hx)
  · next hx => exact hget.trans (List.getD_eq_default _ _ (by omega))

end Sys2Proof.Machine

/-! ## Memory (20_memory.md)

`exec_mem` and `step_mem` say once what an instruction and a step leave in the memory list; the canonical form and the
byte at each address follow from them. -/

namespace Sys2Proof.Machine

/-! ### What one instruction and one step do to memory (R41, R42) -/

/-- Memory is written by an STM in bounds alone, and there in one byte. -/
theorem exec_mem {i : Instr} {s t : State} (h : exec i s = .next t) :
    t.mem = if i = .stm ∧ s.ar.toNat < 2048 then s.mem.set s.ar.toNat s.a else s.mem := by
  by_cases hi : i = .stm
  · subst hi
    by_cases hin : s.ar.toNat < 2048
    · rw [exec_next_of_no_access h (if_pos hin), if_pos ⟨rfl, hin⟩]
      rfl
    · rw [if_neg fun ⟨_, hlt⟩ => hin hlt]
      rcases exec_cases h with ⟨hacc, -⟩ | ⟨e, -, rfl⟩
      · simp [accessError, hin] at hacc
      · rfl
  · rw [if_neg fun ⟨hstm, _⟩ => hi hstm]
    exact exec_keeps (f := State.mem) h (fun _ => rfl) (completed_mem s hi)

/-- A step writes memory where it decodes an STM in bounds; a decode error writes nothing (R95). -/
theorem step_mem {s t : State} (h : step s = .next t) :
    t.mem = if s.decodeAt = .ok .stm ∧ s.ar.toNat < 2048 then s.mem.set s.ar.toNat s.a else s.mem := by
  obtain ⟨-, ⟨i, hdec, hexec⟩ | ⟨cause, hdec, rfl⟩⟩ := step_cases h
  · simpa [hdec] using exec_mem hexec
  · simp [hdec]

theorem step_keeps_memWf {s t : State} (hwf : s.mem.wf = true) (h : step s = .next t) : t.mem.wf = true := by
  rw [step_mem h]
  split
  · next hstore => exact Memory.wf_set hwf hstore.2
  · exact hwf

/-- The byte an address of the bank holds after the step of `u`, when it held `held` before. -/
def byteAfterStep (x : Nat) (held : Byte) (u : State) : Byte :=
  if u.decodeAt = .ok .stm ∧ u.ar.toNat = x then u.a else held

theorem step_mem_get {s t : State} {x : Nat} (hwf : s.mem.wf = true) (hx : x < 2048) (h : step s = .next t) :
    t.mem.get x = byteAfterStep x (s.mem.get x) s := by
  rw [step_mem h, byteAfterStep]
  by_cases hstore : s.decodeAt = .ok .stm ∧ s.ar.toNat = x
  · obtain ⟨hdec, rfl⟩ := hstore
    rw [if_pos ⟨hdec, hx⟩, if_pos ⟨hdec, rfl⟩, Memory.get_set_same hwf]
  · rw [if_neg hstore]
    split
    · next hwrite => exact Memory.get_set_ne fun har => hstore ⟨hwrite.1, har⟩
    · rfl

/-! ### Memory along a run (R46, R49) -/

/-- Along a run, the byte at an address is carried from step to step. -/
theorem Trace.mem_get {s t : State} {us : List State} (h : Trace s us t) (x : Nat) (hwf : s.mem.wf = true)
    (hx : x < 2048) : t.mem.get x = us.foldl (byteAfterStep x) (s.mem.get x) := by
  induction h with
  | nil => rfl
  | cons hstep _ ih => rw [ih (step_keeps_memWf hwf hstep), step_mem_get hwf hx hstep, List.foldl_cons]

/-- A run without an STM to an address leaves the byte there alone. -/
theorem Trace.mem_get_of_no_store {s t : State} {us : List State} (h : Trace s us t) {x : Nat} (hwf : s.mem.wf = true)
    (hx : x < 2048) (hno : ∀ v ∈ us, v.decodeAt = .ok .stm → v.ar.toNat ≠ x) : t.mem.get x = s.mem.get x := by
  rw [h.mem_get x hwf hx]
  refine List.foldlRecOn (motive := (· = s.mem.get x)) us _ rfl fun held hheld v hv => ?_
  rw [byteAfterStep, if_neg fun ⟨hdec, har⟩ => hno v hv hdec har, hheld]

/-! ### The step of a fetched opcode -/

/-- The decoder runs its case on the fetched opcode byte (R61). -/
theorem State.FetchesOpcode.decodeAt_eq {s : State} {op : Byte} (h : s.FetchesOpcode op) :
    s.decodeAt = decodeOpcode s.instrByte op := by
  obtain ⟨-, hpc, rfl⟩ := h
  exact decodeWith_some (State.instrByte_inBounds (k := 0) hpc)

theorem step_of_decodeAt_ok {s : State} {i : Instr} (hrun : s.status = .running) (hdec : s.decodeAt = .ok i) :
    step s = exec i s := by
  simp [step, cycle, hrun, hdec]

/-! ### The statements -/

/-- Settles O6: both values are `le16` of the two bytes, the lower address first. -/
theorem sixteenBitValuesAreLittleEndian : Obligations.SixteenBitValuesAreLittleEndian :=
  ⟨fun lo hi _ => ⟨le16 lo hi, rfl, le16_low lo hi, le16_high lo hi⟩,
    fun _ hin => ⟨_, exec_of_accessError_none (if_pos hin), le16_low _ _, le16_high _ _⟩⟩

/-- Settles O34, from `exec_mem`: what STM writes is one byte at AR, where it writes at all. -/
theorem onlyStmChangesMemory : Obligations.OnlyStmChangesMemory := by
  intro i s t h
  refine ⟨rfl, fun hi x => ?_, fun _ x hx => ?_⟩
  · rw [exec_mem h, if_neg fun ⟨hstm, _⟩ => hi hstm]
  · rw [exec_mem h]
    split
    · exact Memory.get_set_ne hx.symm
    · rfl

/-- Settles O38: the next state is the completed STM, whose memory holds A at AR, and the run from there keeps that
byte. -/
theorem storedCodeIsFetched : Obligations.StoredCodeIsFetched := by
  intro s t hwf hfetch hin hstep
  have hdec : s.decodeAt = .ok .stm := hfetch.decodeAt_eq
  obtain ⟨hrunning, hpc, -⟩ := hfetch
  have ht : t = completed .stm s :=
    exec_next_of_no_access (step_of_decodeAt_ok hrunning hdec ▸ hstep) (if_pos hin)
  have hstored : t.mem.get s.ar.toNat = s.a := by
    rw [step_mem_get hwf hin hstep, byteAfterStep, if_pos ⟨hdec, rfl⟩]
  refine ⟨?_, ?_, fun us u k hrun hno hk => ?_⟩
  · rw [ht]
    exact hrunning
  · rw [ht]
    exact toNat_pc_add_len .stm hpc
  · rw [State.instrByte_inBounds (hk ▸ hin), hk,
      hrun.mem_get_of_no_store (step_keeps_memWf hwf hstep) hin hno, hstored]

/-- Settles O39: the fold of the statement is that of `Trace.mem_get`. -/
theorem memoryHoldsLastStore : Obligations.MemoryHoldsLastStore := by
  intro s t us x hwf hrun hx
  exact hrun.mem_get x hwf hx

end Sys2Proof.Machine

/-! ## Encoding (30_encoding.md)

`DecodeSpec` says from which bytes the decoder gives each of its answers, and `decodeWith_eq_iff` that it gives no other:
the statements below read off their answer's case. -/

namespace Sys2Proof

/-! ### The encoder -/

theorem encodedForm : (i : Instr) → Laws.EncodedForm.Statement i
  | .nop => Laws.EncodedForm.nop
  | .add => Laws.EncodedForm.add
  | .sub => Laws.EncodedForm.sub
  | .ldi imm8 => Laws.EncodedForm.ldi imm8
  | .ldar imm16 => Laws.EncodedForm.ldar imm16
  | .ldm => Laws.EncodedForm.ldm
  | .ldmar => Laws.EncodedForm.ldmar
  | .stm => Laws.EncodedForm.stm
  | .tab => Laws.EncodedForm.tab
  | .tba => Laws.EncodedForm.tba
  | .jmp => Laws.EncodedForm.jmp
  | .jz => Laws.EncodedForm.jz
  | .jc => Laws.EncodedForm.jc
  | .hlt => Laws.EncodedForm.hlt

theorem encode_length (i : Instr) : (encode i).length = i.len := by
  obtain ⟨hlen, -⟩ := encodedForm i (Laws.wellFormed_all i)
  exact hlen

theorem Instr.len_pos (i : Instr) : 0 < i.len := by
  obtain ⟨-, hpos, -⟩ := encodedForm i (Laws.wellFormed_all i)
  exact hpos

theorem Instr.opcode_legal (i : Instr) : i.opcode.toNat ≤ 12 ∨ i.opcode.toNat = 255 := by
  obtain ⟨-, -, -, -, hlegal⟩ := encodedForm i (Laws.wellFormed_all i)
  exact hlegal

/-- The length read off the opcode byte (R57). -/
theorem Instr.len_eq_of_opcode (i : Instr) :
    i.len = if i.opcode.toNat = 3 then 2 else if i.opcode.toNat = 4 then 3 else 1 := by
  cases i <;> rfl

/-! ### What the decoder answers (R61, R63) -/

/-- The reader holds the instruction's bytes. -/
def Reads (r : Nat → Option Byte) (i : Instr) : Prop :=
  ∀ k, k < i.len → r k = (encode i)[k]?

/-- The reader holds the opcode byte of an LDI or LDAR and lacks an operand byte of it. -/
def OperandMissing (r : Nat → Option Byte) : Prop :=
  (r 0 = some 3 ∧ r 1 = none) ∨ (r 0 = some 4 ∧ (r 1 = none ∨ r 2 = none))

/-- The bytes from which the decoder gives an answer. -/
def DecodeSpec (r : Nat → Option Byte) : Except DecodeCause Instr → Prop
  | .ok i => Reads r i
  | .error .pcOutOfBounds => r 0 = none
  | .error (.illegalOpcode op) => r 0 = some op ∧ 13 ≤ op.toNat ∧ op.toNat ≤ 254
  | .error .operandOutOfBounds => OperandMissing r

theorem Reads.opcode {r : Nat → Option Byte} {i : Instr} (h : Reads r i) : r 0 = some i.opcode :=
  h 0 i.len_pos

theorem reads_encode_append (i : Instr) (rest : List Byte) : Reads (fun k => (encode i ++ rest)[k]?) i :=
  fun _ hk => List.getElem?_append_left (encode_length i ▸ hk)

/-- The opcode byte is read first, then its legality, then the operands (D9). -/
theorem decodeWith_spec (r : Nat → Option Byte) : DecodeSpec r (decodeWith r) := by
  cases h0 : r 0 with
  | none => rwa [decodeWith_none h0]
  | some op =>
    rw [decodeWith_some h0]
    rcases opcode_legal_or_illegal op with hlegal | hillegal
    · rcases decodeOpcode_legal r hlegal with ⟨i, hdec, rfl, hread⟩ | ⟨hdec, hmissing⟩
      · rw [hdec]
        intro k hk
        rcases Nat.eq_zero_or_pos k with rfl | hpos
        · exact h0
        · exact hread k hpos hk
      · rw [hdec]
        simpa [DecodeSpec, OperandMissing, h0] using hmissing
    · rw [decodeOpcode_illegal r hillegal]
      exact ⟨h0, hillegal⟩

theorem decodeWith_of_reads {r : Nat → Option Byte} {i : Instr} (h : Reads r i) : decodeWith r = .ok i := by
  rw [decodeWith_some h.opcode]
  cases i with
  | ldi v =>
    have h1 : r 1 = some v := h 1 (by simp [Instr.len])
    show decodeLdi r = _
    simp [decodeLdi, fetchByte, h1]
  | ldar v =>
    have h1 : r 1 = some (v.extractLsb' 0 8) := h 1 (by simp [Instr.len])
    have h2 : r 2 = some (v.extractLsb' 8 8) := h 2 (by simp [Instr.len])
    show decodeLdar r = _
    simp [decodeLdar, fetchByte, h1, h2, le16_extract]
  | _ => rfl

theorem decodeWith_of_operandMissing {r : Nat → Option Byte} (h : OperandMissing r) :
    decodeWith r = .error .operandOutOfBounds := by
  rcases h with ⟨h0, h1⟩ | ⟨h0, h12⟩
  · rw [decodeWith_some h0]
    rcases decodeLdi_cases (r := r) with ⟨v, hv, -⟩ | ⟨-, hdec⟩
    · simp [h1] at hv
    · exact hdec
  · rw [decodeWith_some h0]
    rcases decodeLdar_cases (r := r) with ⟨lo, hi, hlo, hhi, -⟩ | ⟨-, hdec⟩
    · simp [hlo, hhi] at h12
    · exact hdec

theorem decodeWith_eq_iff {r : Nat → Option Byte} {answer : Except DecodeCause Instr} :
    decodeWith r = answer ↔ DecodeSpec r answer := by
  refine ⟨fun h => h ▸ decodeWith_spec r, fun h => ?_⟩
  match answer, h with
  | .ok _, h => exact decodeWith_of_reads h
  | .error .pcOutOfBounds, h => exact decodeWith_none h
  | .error (.illegalOpcode _), ⟨h0, hop⟩ => exact (decodeWith_some h0).trans (decodeOpcode_illegal r hop)
  | .error .operandOutOfBounds, h => exact decodeWith_of_operandMissing h

/-- An instruction is decoded exactly where its own bytes stand (R62). -/
theorem decodeWith_ok_iff {r : Nat → Option Byte} {i : Instr} : decodeWith r = .ok i ↔ Reads r i :=
  decodeWith_eq_iff

theorem decodeBytes_encode_append (i : Instr) (rest : List Byte) : decodeBytes (encode i ++ rest) = .ok i :=
  decodeWith_of_reads (reads_encode_append i rest)

/-! ### The statements about the decoder alone -/

/-- Settles O3, from the IllegalOpcode case of `DecodeSpec`: the recorded byte is the one read. -/
theorem illegalOpcodesAreThirteenTo254 : Obligations.IllegalOpcodesAreThirteenTo254 := by
  intro r op recorded h0
  refine decodeWith_eq_iff.trans ⟨fun ⟨hread, hop⟩ => ?_, fun ⟨hrec, hop⟩ => ?_⟩
  · obtain rfl : op = recorded := Option.some.inj (h0.symm.trans hread)
    exact ⟨rfl, hop⟩
  · subst hrec
    exact ⟨h0, hop⟩

/-- Settles O4: the decoded instruction's bytes are the ones read, so its opcode is `op`, and an instruction's length
and legality are those of its opcode; with both operand bytes present a legal opcode has no error left to give. -/
theorem opcodeAloneFixesLength : Obligations.OpcodeAloneFixesLength := by
  refine ⟨fun r op i h0 hdec => ?_, fun r op h0 h1 h2 hlegal => ?_⟩
  · obtain rfl : op = i.opcode := Option.some.inj (h0.symm.trans (decodeWith_ok_iff.1 hdec).opcode)
    exact ⟨rfl, i.opcode_legal, i.len_eq_of_opcode⟩
  · rw [decodeWith_some h0]
    rcases decodeOpcode_legal r hlegal with ⟨i, hdec, -, -⟩ | ⟨-, ⟨-, hnone⟩ | ⟨-, hnone | hnone⟩⟩
    · exact ⟨i, hdec⟩
    · simp [hnone] at h1
    · simp [hnone] at h1
    · simp [hnone] at h2

/-- Settles O5: the decoder reads any two operand bytes as their `le16`, and the other clauses are encodings. -/
theorem everyOperandByteIsLegal : Obligations.EveryOperandByteIsLegal :=
  ⟨fun v => decodeBytes_encode_append (.ldi v),
    fun lo hi _ => ⟨le16 lo hi, rfl⟩,
    fun v => ⟨v.extractLsb' 0 8, v.extractLsb' 8 8, decodeBytes_encode_append (.ldar v)⟩⟩

end Sys2Proof

namespace Sys2Proof.Machine

/-! ### The decoder over the bytes at the pc -/

theorem State.instrByte_eq_none_iff {s : State} {k : Nat} : s.instrByte k = none ↔ 2048 ≤ s.pc.toNat + k := by
  refine ⟨fun h => ?_, State.instrByte_outside⟩
  by_contra hlt
  rw [State.instrByte_inBounds (by omega)] at h
  cases h

theorem State.instrByte_zero_eq_some_iff {s : State} {op : Byte} :
    s.instrByte 0 = some op ↔ s.pc.toNat < 2048 ∧ s.opcodeByte = op := by
  by_cases hpc : s.pc.toNat < 2048
  · rw [State.instrByte_inBounds (k := 0) hpc, Option.some.injEq]
    exact (and_iff_right hpc).symm
  · rw [State.instrByte_outside (by omega)]
    simp [hpc]

/-- LDI lacks its operand at 2047, LDAR lacks one of its two at 2046 and at 2047 (R62). -/
theorem State.operandMissing_iff (s : State) :
    OperandMissing s.instrByte ↔
      (s.opcodeByte = 0x03 ∧ s.pc.toNat = 2047) ∨
        (s.opcodeByte = 0x04 ∧ (s.pc.toNat = 2046 ∨ s.pc.toNat = 2047)) := by
  unfold OperandMissing
  rw [State.instrByte_zero_eq_some_iff, State.instrByte_zero_eq_some_iff, State.instrByte_eq_none_iff,
    State.instrByte_eq_none_iff]
  constructor
  · rintro (⟨⟨hpc, hop⟩, h1⟩ | ⟨⟨hpc, hop⟩, h12⟩)
    · exact .inl ⟨hop, by omega⟩
    · exact .inr ⟨hop, by omega⟩
  · rintro (⟨hop, hpc⟩ | ⟨hop, hpc⟩)
    · exact .inl ⟨⟨by omega, hop⟩, by omega⟩
    · exact .inr ⟨⟨by omega, hop⟩, by omega⟩

/-- Where the opcode byte of a one-byte instruction is in the bank, the instruction decodes (R62). -/
theorem State.decodeAt_of_len_one {s : State} {i : Instr} (hpc : s.pc.toNat < 2048) (hlen : i.len = 1)
    (hop : s.opcodeByte = i.opcode) : s.decodeAt = .ok i := by
  refine decodeWith_of_reads fun k hk => ?_
  obtain rfl : k = 0 := by omega
  exact State.instrByte_zero_eq_some_iff.2 ⟨hpc, hop⟩

/-- Settles O7: a decoded instruction is fixed by its own bytes (`decodeWith_ok_iff`), and an operand byte is missing
only where the bank ends. -/
theorem decoderReadsOnlyItsInstruction : Obligations.DecoderReadsOnlyItsInstruction := by
  refine ⟨fun r r' i hdec heq => ?_, fun s i hpc hlen hop => ?_, fun s => ?_⟩
  · exact decodeWith_of_reads fun k hk => (heq k hk).trans (decodeWith_ok_iff.1 hdec k hk)
  · exact State.decodeAt_of_len_one (by omega) hlen hop
  · exact decodeWith_eq_iff.trans s.operandMissing_iff

end Sys2Proof.Machine

/-! ## NOP and arithmetic (40_nop_arithmetic.md) -/

namespace Sys2Proof.Machine

/-- A core that fetches the opcode of a one-byte instruction steps by that instruction (R66). -/
theorem State.FetchesOpcode.step_eq_exec {s : State} {i : Instr} (h : s.FetchesOpcode i.opcode) (hlen : i.len = 1) :
    step s = exec i s := by
  obtain ⟨hrun, hpc, hop⟩ := h
  exact step_of_decodeAt_ok hrun (State.decodeAt_of_len_one hpc hlen hop)

/-- R73: the sum wraps modulo 256, and the carry-out is of the exact sum. -/
theorem aluAdd_eq (x y : Byte) :
    aluAdd x y = (BitVec.ofNat 8 ((x.toNat + y.toNat) % 256), decide (x.toNat + y.toNat > 255)) := by
  have hvalue : (aluAdd x y).1 = BitVec.ofNat 8 ((x.toNat + y.toNat) % 256) := by
    apply BitVec.eq_of_toNat_eq
    rw [aluAdd_value, BitVec.toNat_ofNat, Nat.mod_mod]
  exact Prod.ext hvalue rfl

/-- Settles O16: the completed ADD writes back both parts of `aluAdd_eq`, and a fetched opcode 1 runs it. -/
theorem addResult : Obligations.AddResult := by
  intro s t
  have hexec : exec .add s = .next t := by
    rw [exec_of_accessError_none rfl, completed, aluAdd_eq]
    rfl
  exact ⟨hexec, fun hfetch => (hfetch.step_eq_exec (i := .add) rfl).trans hexec⟩

end Sys2Proof.Machine

/-! ## Immediate loads (41_immediate_loads.md) -/

namespace Sys2Proof.Machine

/-- A core that fetches an opcode and finds the instruction's operand bytes after it steps by that instruction (R66). -/
theorem State.FetchesOpcode.step_eq_exec_of_operands {s : State} {i : Instr} (h : s.FetchesOpcode i.opcode)
    (hoperands : ∀ k, 0 < k → k < i.len → s.instrByte k = (encode i)[k]?) : step s = exec i s := by
  obtain ⟨hrun, hpc, hop⟩ := h
  refine step_of_decodeAt_ok hrun (decodeWith_of_reads fun k hk => ?_)
  rcases Nat.eq_zero_or_pos k with rfl | hpos
  · exact State.instrByte_zero_eq_some_iff.2 ⟨hpc, hop⟩
  · exact hoperands k hpos hk

theorem step_of_decodeAt_error {s : State} {cause : DecodeCause} (hrun : s.status = .running)
    (hdec : s.decodeAt = .error cause) : step s = .next (s.raiseError (.decodeError cause)) := by
  simp [step, cycle, hrun, hdec]

/-- R95: a step whose instruction's operand bytes run past the end of the bank is fault entry. -/
theorem step_of_operandMissing {s : State} (hrun : s.status = .running) (h : OperandMissing s.instrByte) :
    step s = .next (s.raiseError (.decodeError .operandOutOfBounds)) :=
  step_of_decodeAt_error hrun (decodeWith_of_operandMissing h)

/-- Settles O18: with its operand byte in the bank, a fetched LDI runs as its whole-state equation says; the only pc
where it fetches without one is 2047, and there the operand is missing. -/
theorem ldiResult : Obligations.LdiResult := by
  refine ⟨fun s v => exec_of_accessError_none rfl, fun s hfetch hin => ?_, fun s hfetch hout => ?_⟩
  · have hexec : step s = exec (.ldi (s.mem.get (s.pc.toNat + 1))) s := by
      refine hfetch.step_eq_exec_of_operands (i := .ldi _) fun k hpos hk => ?_
      obtain rfl : k = 1 := by simp only [Instr.len] at hk; omega
      exact State.instrByte_inBounds hin
    exact hexec.trans (exec_of_accessError_none rfl)
  · obtain ⟨hrun, hpc, hop⟩ := hfetch
    have hmissing : OperandMissing s.instrByte := s.operandMissing_iff.2 (.inl ⟨hop, by omega⟩)
    exact ⟨_, rfl, step_of_operandMissing hrun hmissing⟩

end Sys2Proof.Machine

/-! ## Indirect memory (42_indirect_memory.md) -/

namespace Sys2Proof.Machine

/-- Settles O20, from the access error of LDM: with AR in the bank there is none and the instruction completes; outside
it the error names AR, and `exec` is fault entry. -/
theorem ldmResult : Obligations.LdmResult := by
  refine fun s => ⟨fun hin => ?_, fun hout => ?_, fun hfetch => ?_⟩
  · have hnone : accessError .ldm s = none := if_pos hin
    exact exec_of_accessError_none hnone
  · have hsome : accessError .ldm s = some (.memoryAccessError s.ar.toNat) := if_neg (Nat.not_lt.2 hout)
    exact ⟨_, rfl, exec_of_accessError_some hsome⟩
  · exact hfetch.step_eq_exec (i := .ldm) rfl

end Sys2Proof.Machine

/-! ## Register copy (43_register_copy.md) -/

namespace Sys2Proof.Machine

/-- TAB raises no error of its own (R85). -/
theorem exec_tab (s : State) : exec .tab s = .next { s with b := s.a, pc := s.pc + 1 } :=
  exec_of_accessError_none rfl

/-- TBA raises no error of its own (R86). -/
theorem exec_tba (s : State) : exec .tba s = .next { s with a := s.b, pc := s.pc + 1 } :=
  exec_of_accessError_none rfl

/-- Settles O23: TAB completes, a fetched opcode 8 runs it, and B is outside the writes of every other instruction
(`completed_b`) and of fault entry. -/
theorem tabResult : Obligations.TabResult := by
  refine fun s => ⟨exec_tab s, fun hfetch => ?_, fun i t hi hexec => ?_⟩
  · exact (hfetch.step_eq_exec (i := .tab) rfl).trans (exec_tab s)
  · exact exec_keeps hexec (fun _ => rfl) (completed_b s hi)

/-- Settles O24: TBA completes, a fetched opcode 9 runs it, and the pair TAB, TBA and the reset case are its equation at
the state after TAB and at the reset state. -/
theorem tbaResult : Obligations.TbaResult := by
  refine ⟨fun s => ⟨exec_tba s, fun hfetch => ?_⟩, fun s => ?_, ?_⟩
  · exact (hfetch.step_eq_exec (i := .tba) rfl).trans (exec_tba s)
  · exact ⟨_, _, exec_tab s, exec_tba _, rfl, rfl⟩
  · exact ⟨_, exec_tba State.reset, rfl⟩

end Sys2Proof.Machine

/-! ## Halt (45_halt.md) -/

namespace Sys2Proof.Machine

/-- HLT raises no error of its own (R92). -/
theorem exec_hlt (s : State) : exec .hlt s = .next { s with status := .halted, pc := s.pc + 1 } :=
  exec_of_accessError_none rfl

/-- No meaning but HLT's enters Halted: fault entry enters Faulted, and any other completion keeps the status. -/
theorem exec_enters_halted {i : Instr} {s t : State} (h : exec i s = .next t) (ht : t.status = .halted) :
    s.status = .halted ∨ i = .hlt := by
  rcases exec_cases h with ⟨-, rfl⟩ | ⟨e, -, rfl⟩
  · by_cases hi : i = .hlt
    · exact .inr hi
    · exact .inl (by rwa [completed_status, if_neg hi] at ht)
  · cases ht

/-! ### The host's calls -/

/-- R98: the call returns InvalidStateError and changes nothing. -/
theorem hostStep_of_not_running {s : State} (h : s.status ≠ .running) : hostStep s = (s, .error .invalidState) := by
  simp [hostStep, step_of_not_running h]

theorem step_of_hostStep_ok {s : State} (h : (hostStep s).2 = .ok) : step s = .next (hostStep s).1 := by
  cases hstep : step s with
  | next t => rw [hostStep_next hstep]
  | fault r => simp [hostStep, hstep] at h
  | refused r => simp [hostStep, hstep] at h

/-- How `run()` can return Ok (R121): at once at a Halted core, else after one step and a shorter run. -/
theorem hostRun_ok_cases {n : Nat} {s t : State} (h : hostRun n s = .returned t .ok) :
    (s.status = .halted ∧ t = s) ∨ ∃ m u, n = m + 1 ∧ step s = .next u ∧ hostRun m u = .returned t .ok := by
  by_cases hs : s.status = .halted
  · rw [hostRun_halted hs] at h
    cases h
    exact .inl ⟨hs, rfl⟩
  · cases n with
    | zero =>
      rw [hostRun_zero hs] at h
      cases h
    | succ m =>
      rw [hostRun_succ hs] at h
      split at h
      · next hok => exact .inr ⟨m, _, rfl, step_of_hostStep_ok hok, h⟩
      · next herr =>
        injection h with _ hresult
        exact absurd hresult herr

/-- A run that returns Ok is a trace to a Halted state. -/
theorem RunReturns.trace_to_halted {s t : State} (h : RunReturns s t .ok) :
    t.status = .halted ∧ ∃ us, Trace s us t := by
  obtain ⟨n, hrun⟩ := h
  induction n using Nat.strong_induction_on generalizing s with
  | _ n ih =>
    rcases hostRun_ok_cases hrun with ⟨hs, rfl⟩ | ⟨m, u, rfl, hstep, hrest⟩
    · exact ⟨hs, [], .nil _⟩
    · obtain ⟨ht, us, htrace⟩ := ih m (Nat.lt_succ_self m) hrest
      exact ⟨ht, s :: us, .cons hstep htrace⟩

/-- A trace that enters Halted ends with a step of HLT: no step starts from a Halted state, so the step that enters it
is the last. -/
theorem Trace.last_step_is_hlt {s t : State} {us : List State} (h : Trace s us t) (hs : s.status ≠ .halted)
    (ht : t.status = .halted) : ∃ vs u, Trace s vs u ∧ u.decodeAt = .ok .hlt ∧ step u = .next t := by
  induction h with
  | nil s => exact absurd ht hs
  | @cons s v t us hstep hrest ih =>
    by_cases hv : v.status = .halted
    · cases hrest with
      | nil => exact ⟨[], s, .nil s, (step_halted_iff hstep).1 hv, hstep⟩
      | cons hstep' _ =>
        obtain ⟨hrunning, -⟩ := step_cases hstep'
        rw [hv] at hrunning
        cases hrunning
    · obtain ⟨vs, u, htrace, hdec, hlast⟩ := ih hv ht
      exact ⟨s :: vs, u, .cons hstep htrace, hdec, hlast⟩

/-- Settles O28: HLT completes, a fetched opcode 255 runs it, no other meaning enters Halted (`exec_enters_halted`), and
a run that returns Ok is a trace to Halted, whose last step is HLT's. -/
theorem hltResult : Obligations.HltResult := by
  refine ⟨fun s => ⟨exec_hlt s, fun hfetch => ?_⟩, fun s t hexec => ?_, fun _ _ _ => exec_enters_halted,
    fun s t hret hs => ?_⟩
  · exact (hfetch.step_eq_exec (i := .hlt) rfl).trans (exec_hlt s)
  · obtain rfl := exec_next_of_no_access hexec rfl
    exact hostStep_of_not_running (by simp [completed_status])
  · obtain ⟨ht, us, htrace⟩ := hret.trace_to_halted
    exact htrace.last_step_is_hlt hs ht

end Sys2Proof.Machine

/-! ## Encoding, in full (30_encoding.md sections 1 and 5) -/

namespace Sys2Proof

/-- A list of bytes that decodes begins with the instruction's own bytes. -/
theorem encode_eq_take_of_reads {bs : List Byte} {i : Instr} (h : Reads (fun k => bs[k]?) i) :
    encode i = bs.take i.len := by
  refine List.ext_getElem? fun k => ?_
  by_cases hk : k < i.len
  · rw [List.getElem?_take_of_lt hk]
    exact (h k hk).symm
  · rw [List.getElem?_eq_none (by rw [encode_length]; omega),
      List.getElem?_eq_none ((List.length_take_le _ _).trans (by omega))]

theorem decodeBytes_of_decodeTableWord {nbits w : Nat} {i : Instr} (h : decodeTableWord nbits w = some i) :
    decodeBytes (tableBytes nbits w) = .ok i := by
  unfold decodeTableWord at h
  split at h
  · next hdec => exact hdec.trans (congrArg _ (Option.some.inj h))
  · cases h

/-- Settles O1: the bytes that follow an encoding are not read. -/
theorem decodeAfterEncode : Obligations.DecodeAfterEncode :=
  fun i rest _ => decodeBytes_encode_append i rest

/-- Settles O2: the decoder answers an instruction only where it reads its bytes (`decodeWith_ok_iff`). -/
theorem encodeAfterDecode : Obligations.EncodeAfterDecode :=
  fun _ _ hdec => encode_eq_take_of_reads (decodeWith_ok_iff.1 hdec)

/-- Settles O8: seven written words and one illegal byte, evaluated. -/
theorem writtenWordsDecode : Obligations.WrittenWordsDecode := by
  unfold Obligations.WrittenWordsDecode
  decide

end Sys2Proof

namespace Sys2Proof.Machine

/-! ### Bytes placed at the pc (log 4) -/

theorem Memory.get_placeBytes_below {m : Memory} {x y : Nat} {bs : List Byte} (hy : y < x) :
    (m.placeBytes x bs).get y = m.get y := by
  induction bs generalizing m x with
  | nil => rfl
  | cons b bs ih =>
    rw [Memory.placeBytes, ih (by omega), Memory.place]
    split
    · exact Memory.get_set_ne (by omega)
    · rfl

theorem Memory.get_placeBytes_at {m : Memory} {x k : Nat} {bs : List Byte} (hwf : m.wf = true)
    (hfits : x + bs.length ≤ 2048) (hk : k < bs.length) : (m.placeBytes x bs).get (x + k) = bs[k] := by
  induction bs generalizing m x k with
  | nil => cases hk
  | cons b bs ih =>
    rw [List.length_cons] at hfits hk
    rw [Memory.placeBytes]
    cases k with
    | zero =>
      rw [Memory.get_placeBytes_below (by omega), Memory.get_place hwf (by omega)]
      exact if_pos rfl
    | succ k =>
      have hx : x + (k + 1) = x + 1 + k := by omega
      rw [hx, ih (Memory.wf_place hwf) (by omega) (by omega), List.getElem_cons_succ]

/-- The instruction bytes at the pc are the placed ones. -/
theorem instrByte_placeAtPc {s : State} {k : Nat} {bs : List Byte} (hwf : s.mem.wf = true)
    (hfits : s.pc.toNat + bs.length ≤ 2048) (hk : k < bs.length) : (placeAtPc s bs).instrByte k = bs[k]? := by
  rw [State.instrByte_inBounds (s := placeAtPc s bs) (show s.pc.toNat + k < 2048 by omega), List.getElem?_eq_getElem hk]
  exact congrArg some (Memory.get_placeBytes_at hwf hfits hk)

/-- Settles O10: the three placed bytes hold the whole of any instruction, so the decoder reads at the pc what it reads
from the word. -/
theorem placedWordRunsNext : Obligations.PlacedWordRunsNext := by
  intro s nbits w i hwf hrun hpc hword
  have hread : Reads (fun k => (tableBytes nbits w)[k]?) i :=
    decodeWith_ok_iff.1 (decodeBytes_of_decodeTableWord hword)
  have hplaced : (s.withFetchWord nbits w).decodeAt = .ok i := by
    refine decodeWith_of_reads fun k hk => (instrByte_placeAtPc hwf ?_ ?_).trans (hread k hk)
    · exact hpc
    · exact hk.trans_le i.len_le_three
  exact step_of_decodeAt_ok hrun hplaced

end Sys2Proof.Machine

/-! ## Errors (60_exceptions.md)

`errorExplained_iff` ties the spec's conditions to the two places that raise an error, the decoder and a data access;
`step_explained` is `step_outcomes` in these terms. -/

namespace Sys2Proof.Machine

/-! ### The spec's conditions are where the model raises (R94, R97) -/

/-- R94: the decoder gives a cause exactly where the spec explains it. -/
theorem State.decodeAt_error_iff {s : State} {cause : DecodeCause} :
    s.decodeAt = .error cause ↔ ErrorExplained s (.decodeError cause) := by
  refine decodeWith_eq_iff.trans ?_
  cases cause with
  | pcOutOfBounds => exact State.instrByte_eq_none_iff
  | illegalOpcode op => exact (and_congr_left' State.instrByte_zero_eq_some_iff).trans and_assoc
  | operandOutOfBounds => exact s.operandMissing_iff

theorem State.opcodeByte_of_decodeAt_ok {s : State} {i : Instr} (h : s.decodeAt = .ok i) :
    s.pc.toNat < 2048 ∧ s.opcodeByte = i.opcode :=
  State.instrByte_zero_eq_some_iff.1 (decodeWith_ok_iff.1 h).opcode

/-- A data access raises MemoryAccessError alone, with the first address outside the bank (R40, R97). -/
theorem accessError_eq_some_iff {i : Instr} {s : State} {e : RunError} :
    accessError i s = some e ↔
      ((i = .ldm ∨ i = .ldmar ∨ i = .stm) ∧ 2048 ≤ s.ar.toNat ∧ e = .memoryAccessError s.ar.toNat) ∨
        (i = .ldmar ∧ s.ar.toNat = 2047 ∧ e = .memoryAccessError 2048) := by
  cases i with
  | ldm | stm => simp [accessError, eq_comm]
  | ldmar =>
    rcases Nat.lt_trichotomy s.ar.toNat 2047 with h | h | h
    · simp [accessError, show s.ar.toNat + 1 < 2048 by omega]
      omega
    · simp [accessError, h, eq_comm]
    · have hout : 2048 ≤ s.ar.toNat := h
      simp [accessError, show ¬ s.ar.toNat + 1 < 2048 by omega, hout, h.ne', eq_comm]
  | _ => simp [accessError]

/-- R97: an access error arises exactly where the spec explains it. -/
theorem accessError_explained_iff {s : State} {x : Nat} :
    (∃ i, s.decodeAt = .ok i ∧ accessError i s = some (.memoryAccessError x)) ↔
      ErrorExplained s (.memoryAccessError x) := by
  constructor
  · rintro ⟨i, hdec, hacc⟩
    obtain ⟨hpc, hop⟩ := State.opcodeByte_of_decodeAt_ok hdec
    refine ⟨hpc, ?_⟩
    rw [hop]
    rcases accessError_eq_some_iff.1 hacc with ⟨hi, hout, he⟩ | ⟨rfl, har, he⟩
    · cases he
      refine .inl ⟨?_, hout, rfl⟩
      rcases hi with rfl | rfl | rfl
      · exact .inl rfl
      · exact .inr (.inl rfl)
      · exact .inr (.inr rfl)
    · cases he
      exact .inr ⟨rfl, har, rfl⟩
  · rintro ⟨hpc, ⟨hop | hop | hop, hout, rfl⟩ | ⟨hop, har, rfl⟩⟩
    · exact ⟨.ldm, State.decodeAt_of_len_one hpc rfl hop, accessError_eq_some_iff.2 (.inl ⟨.inl rfl, hout, rfl⟩)⟩
    · exact ⟨.ldmar, State.decodeAt_of_len_one hpc rfl hop,
        accessError_eq_some_iff.2 (.inl ⟨.inr (.inl rfl), hout, rfl⟩)⟩
    · exact ⟨.stm, State.decodeAt_of_len_one hpc rfl hop,
        accessError_eq_some_iff.2 (.inl ⟨.inr (.inr rfl), hout, rfl⟩)⟩
    · exact ⟨.ldmar, State.decodeAt_of_len_one hpc rfl hop, accessError_eq_some_iff.2 (.inr ⟨rfl, har, rfl⟩)⟩

theorem errorExplained_iff {s : State} {e : RunError} :
    ErrorExplained s e ↔
      (∃ cause, s.decodeAt = .error cause ∧ e = .decodeError cause) ∨
        (∃ i, s.decodeAt = .ok i ∧ accessError i s = some e) := by
  cases e with
  | decodeError cause => simp [State.decodeAt_error_iff, accessError_eq_some_iff]
  | memoryAccessError x => simp [accessError_explained_iff]

/-! ### The step in these terms -/

/-- A step ends by an error that the state explains or by the completed instruction. -/
theorem step_explained {s t : State} (h : step s = .next t) :
    s.status = .running ∧
      ((∃ e, ErrorExplained s e ∧ t = s.raiseError e) ∨
        (∃ i, s.decodeAt = .ok i ∧ accessError i s = none ∧ t = completed i s)) := by
  obtain ⟨hrun, ⟨cause, hdec, ht⟩ | ⟨i, e, hdec, hacc, ht⟩ | hcompleted⟩ := step_outcomes h
  · exact ⟨hrun, .inl ⟨_, errorExplained_iff.2 (.inl ⟨cause, hdec, rfl⟩), ht⟩⟩
  · exact ⟨hrun, .inl ⟨e, errorExplained_iff.2 (.inr ⟨i, hdec, hacc⟩), ht⟩⟩
  · exact ⟨hrun, .inr hcompleted⟩

/-- A Running core raises every error that its state explains. -/
theorem step_of_errorExplained {s : State} {e : RunError} (hrun : s.status = .running) (h : ErrorExplained s e) :
    step s = .next (s.raiseError e) := by
  rcases errorExplained_iff.1 h with ⟨cause, hdec, rfl⟩ | ⟨i, hdec, hacc⟩
  · exact step_of_decodeAt_error hrun hdec
  · exact (step_of_decodeAt_ok hrun hdec).trans (exec_of_accessError_some hacc)

theorem step_of_running {s : State} (hrun : s.status = .running) : ∃ t, step s = .next t := by
  cases hdec : s.decodeAt with
  | ok i => exact ⟨_, (step_of_decodeAt_ok hrun hdec).trans (exec_eq i s)⟩
  | error cause => exact ⟨_, step_of_decodeAt_error hrun hdec⟩

/-- A step that leads to Faulted is fault entry (R95). -/
theorem step_to_faulted {s t : State} (h : step s = .next t) (ht : t.status = .faulted) :
    ∃ e, ErrorExplained s e ∧ t = s.raiseError e := by
  obtain ⟨hrun, herr | ⟨i, -, -, rfl⟩⟩ := step_explained h
  · exact herr
  · exact absurd ht (completed_status_ne_faulted hrun)

/-! ### The fault record's fields, read off its error (R96) -/

theorem FaultRecord.kind_decodeError_iff {r : FaultRecord} :
    r.kind = .decodeError ↔ ∃ cause, r.error = .decodeError cause := by
  cases h : r.error <;> simp [FaultRecord.kind, h]

theorem FaultRecord.kind_memoryAccessError_iff {r : FaultRecord} :
    r.kind = .memoryAccessError ↔ ∃ x, r.error = .memoryAccessError x := by
  cases h : r.error <;> simp [FaultRecord.kind, h]

theorem FaultRecord.cause_eq_some_iff {r : FaultRecord} {cause : DecodeCause} :
    r.cause = some cause ↔ r.error = .decodeError cause := by
  cases h : r.error <;> simp [FaultRecord.cause, h]

theorem FaultRecord.opcode_eq_some_iff {r : FaultRecord} {op : Byte} :
    r.opcode = some op ↔ r.error = .decodeError (.illegalOpcode op) := by
  rcases h : r.error with (_ | _ | _) | _ <;> simp [FaultRecord.opcode, h]

theorem FaultRecord.addr_eq_some_iff {r : FaultRecord} {x : Nat} :
    r.addr = some x ↔ r.error = .memoryAccessError x := by
  cases h : r.error <;> simp [FaultRecord.addr, h]

/-! ### The statements -/

/-- Settles O11: such a step is fault entry, and the host reads the error from the record it wrote. -/
theorem failedStepChangesOnlyStatusAndFault : Obligations.FailedStepChangesOnlyStatusAndFault := by
  intro s t h ht
  obtain ⟨e, -, rfl⟩ := step_to_faulted h ht
  exact ⟨e, rfl, hostStep_next h⟩

/-- Settles O12: `step_of_errorExplained`, and a step that no error explains completes its instruction. -/
theorem errorsAreExactlyTheSpecs : Obligations.ErrorsAreExactlyTheSpecs := by
  refine fun s hrun => ⟨fun e he => step_of_errorExplained hrun he, fun hnone => ?_⟩
  obtain ⟨t, h⟩ := step_of_running hrun
  refine ⟨t, h, fun ht => ?_⟩
  obtain ⟨e, he, -⟩ := step_to_faulted h ht
  exact hnone e he

/-- Settles O13: a Running core steps, and in any other status the step is InvalidStateError. -/
theorem stepAnswersForEveryState : Obligations.StepAnswersForEveryState := by
  intro s
  by_cases hrun : s.status = .running
  · obtain ⟨t, h⟩ := step_of_running hrun
    simp [h, hrun]
  · simp [step_of_not_running hrun, hrun]

/-- Settles O49: the record is the one fault entry wrote, each of its fields is read off its error, and
`ErrorExplained` says what that error's opcode and address are. -/
theorem recordFieldsMatchItsKind : Obligations.RecordFieldsMatchItsKind := by
  intro s t r hs h hr
  obtain ⟨-, ⟨e, he, rfl⟩ | ⟨i, -, -, rfl⟩⟩ := step_explained h
  · obtain rfl : { error := e, pc := s.pc } = r := Option.some.inj hr
    refine ⟨rfl, ?_, ?_, fun op => ?_, fun op hop => ?_, fun x hx => ?_⟩
    · simp only [FaultRecord.kind_decodeError_iff, FaultRecord.cause_eq_some_iff]
    · simp only [FaultRecord.kind_memoryAccessError_iff, FaultRecord.addr_eq_some_iff]
    · rw [FaultRecord.opcode_eq_some_iff, FaultRecord.cause_eq_some_iff]
    · obtain rfl : e = .decodeError (.illegalOpcode op) := FaultRecord.opcode_eq_some_iff.1 hop
      obtain ⟨-, hfetched, -⟩ := he
      exact hfetched.symm
    · obtain rfl : e = .memoryAccessError x := FaultRecord.addr_eq_some_iff.1 hx
      obtain ⟨-, ⟨-, hout, rfl⟩ | ⟨-, har, rfl⟩⟩ := he
      · exact ⟨hout, .inl rfl⟩
      · exact ⟨le_rfl, .inr (by rw [har])⟩
  · rw [completed_fault, hs] at hr
    cases hr

/-- Settles O9, from the three cases of the cycle. -/
theorem stepRunsDecodedInstruction : Obligations.StepRunsDecodedInstruction :=
  ⟨fun _ _ hrun hdec _ => step_of_decodeAt_ok hrun hdec, fun _ _ hrun hdec => step_of_decodeAt_error hrun hdec,
    fun _ hs => ⟨step_of_not_running hs, hostStep_of_not_running hs⟩⟩

end Sys2Proof.Machine

/-! ## The invariant (10_state.md section 3, 60_exceptions.md section 3) -/

namespace Sys2Proof.Machine

/-- What explains an error is in pc, memory and AR, which fault entry keeps. -/
theorem errorExplained_raiseError {s : State} {e : RunError} (e' : RunError) (h : ErrorExplained s e) :
    ErrorExplained (s.raiseError e') e := by
  rcases e with (_ | _ | _) | _ <;> exact h

/-- R21: the next pc is a jump target, which has 16 bits, or at most three after a pc of the bank. -/
theorem completed_pc_le {i : Instr} {s : State} (h : s.pc.toNat < 2048) : (completed i s).pc.toNat ≤ 65535 := by
  by_cases htaken : JumpTaken i s
  · rw [completed_pc_of_taken htaken, jumpTarget_toNat]
    exact Nat.le_of_lt_succ s.ar.isLt
  · rw [completed_pc_of_not_taken htaken, toNat_pc_add_len i h]
    have hlen := i.len_le_three
    omega

/-- A Running core that meets the invariant holds no fault record. -/
theorem State.Inv.fault_eq_none {s : State} (h : s.Inv) (hrun : s.status = .running) : s.fault = none := by
  cases hf : s.fault with
  | none => rfl
  | some r =>
    have hfaulted : s.status = .faulted := h.faultIff.2 (by rw [hf]; rfl)
    rw [hrun] at hfaulted
    cases hfaulted

/-- Fault entry keeps the invariant, where its error is one that the state explains. -/
theorem State.Inv.raiseError {s : State} {e : RunError} (h : s.Inv) (he : ErrorExplained s e) :
    (s.raiseError e).Inv where
  memWf := h.memWf
  pcBound := h.pcBound
  faultIff := by simp
  faultTrue := by
    rintro r ⟨rfl⟩
    exact ⟨rfl, errorExplained_raiseError e he⟩
  haltedAfterHlt := nofun

/-- R92: the byte before the pc is the HLT that ran, since HLT stores nothing. -/
theorem completed_halted_after_hlt {i : Instr} {s : State} (hrun : s.status = .running) (hdec : s.decodeAt = .ok i)
    (h : (completed i s).status = .halted) :
    1 ≤ (completed i s).pc.toNat ∧ (completed i s).pc.toNat ≤ 2048 ∧
      (completed i s).mem.get ((completed i s).pc.toNat - 1) = 0xFF := by
  obtain rfl : i = .hlt := by
    by_contra hi
    rw [completed_status, if_neg hi, hrun] at h
    cases h
  obtain ⟨hpc, hop⟩ := State.opcodeByte_of_decodeAt_ok hdec
  have hnext : (completed .hlt s).pc.toNat = s.pc.toNat + 1 := toNat_pc_add_len .hlt hpc
  rw [hnext]
  exact ⟨by omega, by omega, hop⟩

/-- Completing the decoded instruction keeps the invariant. -/
theorem State.Inv.completed {i : Instr} {s : State} (h : s.Inv) (hrun : s.status = .running)
    (hdec : s.decodeAt = .ok i) (hacc : accessError i s = none) : (completed i s).Inv where
  memWf := step_keeps_memWf h.memWf ((step_of_decodeAt_ok hrun hdec).trans (exec_of_accessError_none hacc))
  pcBound := completed_pc_le (State.pc_lt_of_decodeAt_ok hdec)
  faultIff := by simp [completed_status_ne_faulted hrun, completed_fault, h.fault_eq_none hrun]
  faultTrue := by simp [completed_fault, h.fault_eq_none hrun]
  haltedAfterHlt := completed_halted_after_hlt hrun hdec

/-- A state that holds the reset values but for a canonical memory meets the invariant. -/
theorem inv_of_reset_values {m : Memory} (hwf : m.wf = true) : ({ State.reset with mem := m } : State).Inv where
  memWf := hwf
  pcBound := Nat.zero_le _
  faultIff := by simp
  faultTrue := nofun
  haltedAfterHlt := nofun

/-- Every constructed machine meets the invariant (R112). -/
theorem inv_of_construct {source : Option (List Byte)} {s : State} (h : construct source = .ok s) : s.Inv := by
  obtain ⟨img, -, hlen, rfl⟩ := construct_ok h
  exact inv_of_reset_values (Memory.wf_ofBytes hlen)

/-- Settles O42: a step is fault entry with an explained error or the completed instruction, and both keep it. -/
theorem stepKeepsInvariant : Obligations.StepKeepsInvariant := by
  intro s t hinv h
  obtain ⟨hrun, ⟨e, he, rfl⟩ | ⟨i, hdec, hacc, rfl⟩⟩ := step_explained h
  · exact hinv.raiseError he
  · exact hinv.completed hrun hdec hacc

/-- Settles O43: the reset state is the construction from the empty image. -/
theorem resetMeetsInvariant : Obligations.ResetMeetsInvariant := inv_of_construct construct_empty

/-- Settles O44, by induction on the steps from a constructed machine. -/
theorem reachableStatesMeetInvariant : Obligations.ReachableStatesMeetInvariant := by
  intro s h
  induction h with
  | constructed hcon => exact inv_of_construct hcon
  | stepped _ hstep ih => exact stepKeepsInvariant _ _ ih hstep

/-- Settles O46: an unlisted address reads as 0, and the rest are the values of `State.reset`. -/
theorem resetValues : Obligations.ResetValues :=
  ⟨rfl, rfl, rfl, rfl, rfl, rfl, rfl, Memory.get_nil, construct_empty⟩

end Sys2Proof.Machine

/-! ## The remaining instructions, each as a whole-state equation (40 to 44) -/

namespace Sys2Proof.Machine

/-- A fetch outside the bank faults (R94, decisions D3 and D4). -/
theorem step_of_pc_outside {s : State} (hrun : s.status = .running) (hpc : 2048 ≤ s.pc.toNat) :
    step s = .next (s.raiseError (.decodeError .pcOutOfBounds)) :=
  step_of_errorExplained hrun hpc

/-! ### NOP and SUB (40_nop_arithmetic.md) -/

theorem exec_nop (s : State) : exec .nop s = .next { s with pc := s.pc + 1 } :=
  exec_of_accessError_none rfl

/-- R73: the difference wraps modulo 256, and the carry-out is the borrow. -/
theorem aluSub_eq (x y : Byte) :
    aluSub x y = (BitVec.ofInt 8 (((x.toNat : Int) - (y.toNat : Int)) % 256), decide (x.toNat < y.toNat)) := by
  have hvalue : (aluSub x y).1 = BitVec.ofInt 8 (((x.toNat : Int) - (y.toNat : Int)) % 256) := by
    apply BitVec.eq_of_toNat_eq
    rw [aluSub_value, BitVec.toNat_ofInt]
    omega
  exact Prod.ext hvalue rfl

/-- Settles O15: a fetched opcode 0 runs NOP, and from 2047 it leaves a Running core whose pc is outside the bank. -/
theorem nopOnlyAdvancesPc : Obligations.NopOnlyAdvancesPc := by
  intro s
  have hstep (hfetch : s.FetchesOpcode 0x00) : step s = .next { s with pc := s.pc + 1 } :=
    (hfetch.step_eq_exec (i := .nop) rfl).trans (exec_nop s)
  refine ⟨exec_nop s, hstep, fun hfetch hpc => ?_⟩
  have ⟨hrun, hin, _⟩ := hfetch
  have hnext : (s.pc + 1).toNat = 2048 := (toNat_pc_add_len .nop hin).trans (congrArg (· + 1) hpc)
  exact ⟨_, _, _, hstep hfetch, hrun, hnext, step_of_pc_outside hrun hnext.ge, rfl, rfl, rfl⟩

/-- Settles O17: the completed SUB writes back both parts of `aluSub_eq`, and a fetched opcode 2 runs it. -/
theorem subResult : Obligations.SubResult := by
  intro s t
  have hexec : exec .sub s = .next t := by
    rw [exec_of_accessError_none rfl, completed, aluSub_eq]
    rfl
  exact ⟨hexec, fun hfetch => (hfetch.step_eq_exec (i := .sub) rfl).trans hexec⟩

/-! ### LDAR and LDMAR (41_immediate_loads.md, 42_indirect_memory.md) -/

/-- R37: the value as a number of 16 bits. -/
theorem le16_eq_ofNat (lo hi : Byte) : le16 lo hi = BitVec.ofNat 16 (lo.toNat + 256 * hi.toNat) := by
  rw [← le16_toNat, BitVec.ofNat_toNat, BitVec.setWidth_eq]

/-- A fetched LDAR whose two operand bytes are in the bank runs with their `le16`. -/
theorem State.FetchesOpcode.step_ldar {s : State} (h : s.FetchesOpcode 0x04) (hin : s.pc.toNat + 2 < 2048) :
    step s = exec (.ldar (le16 (s.mem.get (s.pc.toNat + 1)) (s.mem.get (s.pc.toNat + 2)))) s := by
  refine h.step_eq_exec_of_operands (i := .ldar _) fun k hpos hk => ?_
  rw [State.instrByte_inBounds (by simp only [Instr.len] at hk; omega)]
  obtain rfl | rfl : k = 1 ∨ k = 2 := by simp only [Instr.len] at hk; omega
  · simp [encode, Instr.operandBytes, le16_low]
  · simp [encode, Instr.operandBytes, le16_high]

/-- Settles O19: with both operand bytes in the bank a fetched LDAR writes their `le16`; the pcs where it fetches with
one missing are 2046 and 2047. -/
theorem ldarResult : Obligations.LdarResult := by
  have hexec (s : State) (v : AddrWord) : exec (.ldar v) s = .next { s with ar := v, pc := s.pc + 3 } :=
    exec_of_accessError_none rfl
  refine ⟨hexec, fun s hfetch hin => ?_, fun s hfetch hout => ?_⟩
  · rw [hfetch.step_ldar hin, hexec, le16_eq_ofNat]
  · obtain ⟨hrun, hpc, hop⟩ := hfetch
    have hmissing : OperandMissing s.instrByte := s.operandMissing_iff.2 (.inr ⟨hop, by omega⟩)
    exact ⟨_, rfl, step_of_operandMissing hrun hmissing⟩

/-- Settles O21: the three ranges of AR are those of `accessError`, and the completed value is the `le16` of the two
bytes. -/
theorem ldmarResult : Obligations.LdmarResult := by
  intro s
  refine ⟨fun hin => ?_, fun har => ?_, fun hout => ?_, fun hfetch => hfetch.step_eq_exec (i := .ldmar) rfl⟩
  · have hnone : accessError .ldmar s = none := if_pos (by omega)
    rw [exec_of_accessError_none hnone, completed, le16_eq_ofNat]
    rfl
  · exact ⟨_, rfl, exec_of_accessError_some (accessError_eq_some_iff.2 (.inr ⟨rfl, har, rfl⟩))⟩
  · exact ⟨_, rfl, exec_of_accessError_some (accessError_eq_some_iff.2 (.inl ⟨.inr (.inl rfl), hout, rfl⟩))⟩

/-! ### STM (42_indirect_memory.md) -/

theorem exec_stm_inBounds {s : State} (hin : s.ar.toNat < 2048) :
    exec .stm s = .next { s with mem := s.mem.set s.ar.toNat s.a, pc := s.pc + 1 } :=
  exec_of_accessError_none (if_pos hin)

/-- Settles O22: the new memory is `Memory.set` at AR, which keeps the form and every other byte. -/
theorem stmResult : Obligations.StmResult := by
  intro s hwf
  refine ⟨rfl, fun hin => ?_, fun hout => ?_, fun hfetch => hfetch.step_eq_exec (i := .stm) rfl⟩
  · exact ⟨_, exec_stm_inBounds hin, Memory.wf_set hwf hin, Memory.get_set_same hwf,
      fun x hx => Memory.get_set_ne hx.symm⟩
  · exact ⟨_, rfl, exec_of_accessError_some (accessError_eq_some_iff.2 (.inl ⟨.inr (.inr rfl), hout, rfl⟩))⟩

/-! ### The jumps (44_control_transfer.md) -/

theorem jumpTarget_eq_ofNat (s : State) : jumpTarget s = BitVec.ofNat 32 s.ar.toNat := by
  rw [← jumpTarget_toNat, BitVec.ofNat_toNat, BitVec.setWidth_eq]

/-- R87, decision D3: at a target outside the bank the next step faults. -/
theorem step_of_jump_outside {s : State} (v : AddrWord) (hrun : s.status = .running)
    (hpc : s.pc = BitVec.ofNat 32 v.toNat) (hout : v.toNat ≥ 2048) : ∃ u, step s = .next u ∧ u.status = .faulted := by
  have houtside : 2048 ≤ s.pc.toNat := by
    rw [hpc, BitVec.toNat_ofNat]
    omega
  exact ⟨_, step_of_pc_outside hrun houtside, rfl⟩

/-- Settles O25: JMP completes with the target in the pc, and the step after it is the fetch there. -/
theorem jmpResult : Obligations.JmpResult := by
  intro s t
  have hexec : exec .jmp s = .next t := by
    rw [exec_of_accessError_none rfl, completed, State.jumpIf_eq, if_pos rfl, jumpTarget_eq_ofNat]
  refine ⟨hexec, fun hfetch => (hfetch.step_eq_exec (i := .jmp) rfl).trans hexec, fun hfetch hout => ?_⟩
  obtain ⟨hrun, -⟩ := hfetch
  exact step_of_jump_outside s.ar hrun rfl hout

/-- Settles O26: JZ completes with the pc that the test on A selects, and taken, the step after it is the fetch at
the target. -/
theorem jzResult : Obligations.JzResult := by
  intro s t
  have htest : s.a = 0 ↔ s.a.toNat = 0 := BitVec.toNat_inj.symm
  have hexec : exec .jz s = .next t := by
    rw [exec_of_accessError_none rfl, completed, State.jumpIf_eq, jumpTarget_eq_ofNat]
    simp only [htest, decide_eq_true_eq]
    rfl
  refine ⟨hexec, fun hfetch => (hfetch.step_eq_exec (i := .jz) rfl).trans hexec, fun hfetch ha hout => ?_⟩
  obtain ⟨hrun, -⟩ := hfetch
  exact step_of_jump_outside s.ar hrun (if_pos ha) hout

/-- Settles O27: JC completes with the pc that the stored carry selects, and taken, the step after it is the fetch at
the target. -/
theorem jcResult : Obligations.JcResult := by
  intro s t
  have hexec : exec .jc s = .next t := by
    rw [exec_of_accessError_none rfl, completed, State.jumpIf_eq, jumpTarget_eq_ofNat]
  refine ⟨hexec, fun hfetch => (hfetch.step_eq_exec (i := .jc) rfl).trans hexec, fun hfetch hc hout => ?_⟩
  obtain ⟨hrun, -⟩ := hfetch
  exact step_of_jump_outside s.ar hrun (if_pos hc) hout

end Sys2Proof.Machine

/-! ## Laws of memory and of the ALU (20_memory.md, 40_nop_arithmetic.md, 10_state.md section 5) -/

namespace Sys2Proof.Machine

/-! ### Who reads data memory (R32, R39) -/

/-- With other bytes in memory, an instruction answers the same state but for those bytes, as soon as its completed
state is the same: whether an access is in bounds does not depend on memory. -/
theorem exec_with_mem {i : Instr} {s t : State} {m : Memory} (h : exec i s = .next t)
    (hcomp : completed i { s with mem := m } = { completed i s with mem := m }) :
    exec i { s with mem := m } = .next { t with mem := m } := by
  obtain ⟨t', hexec, rfl⟩ := exec_related (s' := { s with mem := m }) (R := fun t' t => t' = { t with mem := m }) h
    (accessError_congr i rfl) (fun _ _ => rfl) hcomp
  exact hexec

/-- What memory holds matters to LDM, LDMAR and STM alone. -/
theorem completed_ignores_mem {i : Instr} (s : State) (m : Memory) (hldm : i ≠ .ldm) (hldmar : i ≠ .ldmar)
    (hstm : i ≠ .stm) : completed i { s with mem := m } = { completed i s with mem := m } := by
  cases i with
  | ldm => exact absurd rfl hldm
  | ldmar => exact absurd rfl hldmar
  | stm => exact absurd rfl hstm
  | jz | jc => simp only [completed, State.jumpIf_eq, jumpTarget]
  | _ => rfl

/-- Settles O33: the completed state depends on the bytes at the data addresses alone, and STM's on none but in the
memory it leaves. -/
theorem whoReadsMemory : Obligations.WhoReadsMemory := by
  intro i s t m h
  refine ⟨fun hldm hldmar hstm => ?_, ?_, ?_, ?_⟩
  · exact exec_with_mem h (completed_ignores_mem s m hldm hldmar hstm)
  · rintro rfl hbyte
    exact exec_with_mem h (by simp only [completed, hbyte]; rfl)
  · rintro rfl hlo hhi
    exact exec_with_mem h (by simp only [completed, hlo, hhi]; rfl)
  · rintro rfl
    exact exec_related (R := fun t' t => { t' with mem := t.mem } = t) h (accessError_congr .stm rfl)
      (fun _ _ => rfl) rfl

/-! ### A stored byte is loaded back (R84, R82) -/

/-- Settles O37: after an STM in bounds the byte at AR is A's, and LDM reads the byte at AR. -/
theorem storedByteLoadsBack : Obligations.StoredByteLoadsBack := by
  intro s t u hwf hin hstm hmem har
  have hbyte : u.mem.get u.ar.toNat = s.a := by
    rw [hmem, har, exec_mem hstm, if_pos ⟨rfl, hin⟩, Memory.get_set_same hwf]
  obtain ⟨hldm, -⟩ := ldmResult u
  rw [hldm (har ▸ hin), hbyte]

/-! ### The canonical form is determined by what it reads as (log 5) -/

/-- Where canonical cells hold a byte other than 0, their first address is not above it. -/
theorem Memory.first_le {lo k x : Nat} {v : Byte} {m : Memory} (hwf : Memory.wfFrom lo ((k, v) :: m) = true)
    (hx : Memory.get ((k, v) :: m) x ≠ 0) : k ≤ x := by
  obtain ⟨-, hin, hv, hrest⟩ := Memory.wfFrom_cell.1 hwf
  by_contra hlt
  exact hx (Memory.get_below (Memory.wfFrom_cell.2 ⟨le_rfl, hin, hv, hrest⟩) (by omega))

/-- The first cell's byte is read at its address, and it is not 0. -/
theorem Memory.get_first_ne {lo k : Nat} {v : Byte} {m : Memory} (hwf : Memory.wfFrom lo ((k, v) :: m) = true) :
    Memory.get ((k, v) :: m) k ≠ 0 := by
  obtain ⟨-, -, hv, -⟩ := Memory.wfFrom_cell.1 hwf
  rwa [Memory.get_cell, if_pos rfl]

theorem Memory.wfFrom_ext {lo lo' : Nat} {m m' : Memory} (hwf : Memory.wfFrom lo m = true)
    (hwf' : Memory.wfFrom lo' m' = true) (hget : ∀ x, Memory.get m x = Memory.get m' x) : m = m' := by
  induction m generalizing lo lo' m' with
  | nil =>
    cases m' with
    | nil => rfl
    | cons cell' m' => exact absurd (hget cell'.1).symm (Memory.get_first_ne hwf')
  | cons cell m ih =>
    cases m' with
    | nil => exact absurd (hget cell.1) (Memory.get_first_ne hwf)
    | cons cell' m' =>
      obtain ⟨k, v⟩ := cell
      obtain ⟨k', v'⟩ := cell'
      have hfirst : k' ≤ k := Memory.first_le hwf' (hget k ▸ Memory.get_first_ne hwf)
      have hfirst' : k ≤ k' := Memory.first_le hwf (hget k' ▸ Memory.get_first_ne hwf')
      obtain rfl : k = k' := by omega
      obtain rfl : v = v' := by simpa [Memory.get_cell] using hget k
      obtain ⟨-, -, -, hrest⟩ := Memory.wfFrom_cell.1 hwf
      obtain ⟨-, -, -, hrest'⟩ := Memory.wfFrom_cell.1 hwf'
      refine congrArg _ (ih hrest hrest' fun x => ?_)
      by_cases hx : k = x
      · subst hx
        rw [Memory.get_below hrest (by omega), Memory.get_below hrest' (by omega)]
      · simpa [Memory.get_cell, hx] using hget x

/-- Settles O41: both memories read as 0 outside the bank, so they read alike everywhere. -/
theorem memoriesThatReadAlikeAreEqual : Obligations.MemoriesThatReadAlikeAreEqual := by
  refine fun m m' hwf hwf' hget => Memory.wfFrom_ext hwf hwf' fun x => ?_
  by_cases hx : x < 2048
  · exact hget x hx
  · rw [Memory.get_outside hwf (by omega), Memory.get_outside hwf' (by omega)]

/-! ### ADD and SUB undo each other (R77) -/

/-- Subtracting the addend gives the byte back, and borrows exactly where the sum wrapped. -/
theorem aluSub_aluAdd (x y : Byte) : aluSub (aluAdd x y).1 y = (x, (aluAdd x y).2) := by
  have hborrow : (aluSub (aluAdd x y).1 y).2 = (aluAdd x y).2 := by
    rw [Bool.eq_iff_iff, aluSub_borrow, aluAdd_carry, aluAdd_value]
    omega
  exact Prod.ext (BitVec.add_sub_cancel x y) hborrow

/-- Adding the subtrahend gives the byte back, and carries exactly where the difference wrapped. -/
theorem aluAdd_aluSub (x y : Byte) : aluAdd (aluSub x y).1 y = (x, (aluSub x y).2) := by
  have hcarry : (aluAdd (aluSub x y).1 y).2 = (aluSub x y).2 := by
    rw [Bool.eq_iff_iff, aluAdd_carry, aluSub_borrow, aluSub_value]
    omega
  exact Prod.ext (BitVec.sub_add_cancel x y) hcarry

theorem exec_add (s : State) :
    exec .add s = .next { s with a := (aluAdd s.a s.b).1, c := (aluAdd s.a s.b).2, pc := s.pc + 1 } :=
  exec_of_accessError_none rfl

theorem exec_sub (s : State) :
    exec .sub s = .next { s with a := (aluSub s.a s.b).1, c := (aluSub s.a s.b).2, pc := s.pc + 1 } :=
  exec_of_accessError_none rfl

/-- Settles O36, from the two laws of the ALU: the second result is the first operand and the first carry-out. -/
theorem addAndSubUndoEachOther : Obligations.AddAndSubUndoEachOther := by
  refine ⟨fun s => ⟨_, _, exec_add s, exec_sub _, ?_⟩, fun s => ⟨_, _, exec_sub s, exec_add _, ?_⟩⟩
  · simp only [aluSub_aluAdd]
    exact ⟨trivial, trivial, aluAdd_carry s.a s.b⟩
  · simp only [aluAdd_aluSub]
    exact ⟨trivial, trivial, aluSub_borrow s.a s.b⟩

/-! ### The carry along a run (R24, R90) -/

/-- What C is after the step of `u`, when it was `held` before. -/
def carryAfterStep (held : Bool) (u : State) : Bool :=
  if u.decodeAt = .ok .add then decide (u.a.toNat + u.b.toNat > 255)
  else if u.decodeAt = .ok .sub then decide (u.a.toNat < u.b.toNat)
  else held

theorem carryAfterStep_of_keeps {held : Bool} {u : State} (hadd : u.decodeAt ≠ .ok .add)
    (hsub : u.decodeAt ≠ .ok .sub) : carryAfterStep held u = held := by
  rw [carryAfterStep, if_neg hadd, if_neg hsub]

/-- A step changes C only by completing an ADD or a SUB. -/
theorem step_c {s t : State} (h : step s = .next t) : t.c = carryAfterStep s.c s := by
  obtain ⟨-, ⟨cause, hdec, rfl⟩ | ⟨i, e, hdec, hacc, rfl⟩ | ⟨i, hdec, -, rfl⟩⟩ := step_outcomes h
  · exact (carryAfterStep_of_keeps (by simp [hdec]) (by simp [hdec])).symm
  · have hadd : i ≠ .add := by rintro rfl; cases hacc
    have hsub : i ≠ .sub := by rintro rfl; cases hacc
    exact (carryAfterStep_of_keeps (by simp [hdec, hadd]) (by simp [hdec, hsub])).symm
  · by_cases hadd : i = .add
    · subst hadd
      exact (if_pos hdec).symm
    · by_cases hsub : i = .sub
      · subst hsub
        rw [carryAfterStep, if_neg (by simp [hdec]), if_pos hdec]
        rfl
      · rw [completed_c s hadd hsub, carryAfterStep_of_keeps (by simp [hdec, hadd]) (by simp [hdec, hsub])]

theorem Trace.carry {s t : State} {us : List State} (h : Trace s us t) : t.c = us.foldl carryAfterStep s.c := by
  induction h with
  | nil => rfl
  | cons hstep _ ih => rw [ih, step_c hstep, List.foldl_cons]

/-- Settles O40: the fold of the statement is that of `Trace.carry`. -/
theorem carryIsOfLastArithmetic : Obligations.CarryIsOfLastArithmetic :=
  fun _ _ _ hrun => hrun.carry

end Sys2Proof.Machine

/-! ## `run()` (70_reset_and_hazards.md section 3) -/

namespace Sys2Proof.Machine

/-! ### The loop -/

/-- How a run can return (R121): at once at a Halted core, else after one turn of the loop. -/
theorem hostRun_returned_cases {n : Nat} {s t : State} {r : CallResult} (h : hostRun n s = .returned t r) :
    (s.status = .halted ∧ t = s ∧ r = .ok) ∨
      (s.status ≠ .halted ∧ ∃ m, n = m + 1 ∧
        (((hostStep s).2 = .ok ∧ hostRun m (hostStep s).1 = .returned t r) ∨
          ((hostStep s).2 ≠ .ok ∧ t = (hostStep s).1 ∧ r = (hostStep s).2))) := by
  by_cases hs : s.status = .halted
  · rw [hostRun_halted hs] at h
    cases h
    exact .inl ⟨hs, rfl, rfl⟩
  · cases n with
    | zero =>
      rw [hostRun_zero hs] at h
      cases h
    | succ m =>
      rw [hostRun_succ hs] at h
      refine .inr ⟨hs, m, rfl, ?_⟩
      split at h
      · next hok => exact .inl ⟨hok, h⟩
      · next herr =>
        cases h
        exact .inr ⟨herr, rfl, rfl⟩

/-- Settles O47: a returned run is taken apart by `hostRun_returned_cases`, and put together by one more turn. -/
theorem runFollowsItsLoop : Obligations.RunFollowsItsLoop := by
  intro s t r
  constructor
  · rintro ⟨n, h⟩
    rcases hostRun_returned_cases h with hhalted | ⟨hs, m, -, ⟨hok, hrest⟩ | herr⟩
    · exact .inl hhalted
    · exact .inr ⟨hs, .inl ⟨hok, m, hrest⟩⟩
    · exact .inr ⟨hs, .inr herr⟩
  · rintro (⟨hs, rfl, rfl⟩ | ⟨hs, ⟨hok, n, hrest⟩ | ⟨herr, rfl, rfl⟩⟩)
    · exact ⟨0, hostRun_halted hs⟩
    · exact ⟨n + 1, by rw [hostRun_succ hs, if_pos hok, hrest]⟩
    · exact ⟨1, by rw [hostRun_succ hs, if_neg herr]⟩

/-! ### How a call returns (R122) -/

/-- A call at a core that is not Halted returns Ok, or an error with status Faulted. -/
theorem hostStep_ok_or_faulted {s : State} (hs : s.status ≠ .halted) :
    (hostStep s).2 = .ok ∨ ((hostStep s).1.status = .faulted ∧ ∃ e, (hostStep s).2 = .error e) := by
  cases hstatus : s.status with
  | running =>
    obtain ⟨t, h⟩ := step_of_running hstatus
    rw [hostStep_next h]
    obtain ⟨-, ⟨e, -, rfl⟩ | ⟨i, -, -, rfl⟩⟩ := step_explained h
    · exact .inr ⟨rfl, _, rfl⟩
    · refine .inl ?_
      by_cases hi : i = .hlt <;> simp [resultOf, completed_status, hi, hstatus]
  | halted => exact absurd hstatus hs
  | faulted =>
    rw [hostStep_of_not_running (by simp [hstatus])]
    exact .inr ⟨hstatus, _, rfl⟩

theorem hostRun_returned_halted_or_faulted {n : Nat} {s t : State} {r : CallResult}
    (h : hostRun n s = .returned t r) :
    (t.status = .halted ∧ r = .ok) ∨ (t.status = .faulted ∧ ∃ e, r = .error e) := by
  induction n using Nat.strong_induction_on generalizing s with
  | _ n ih =>
    rcases hostRun_returned_cases h with ⟨hs, rfl, rfl⟩ | ⟨hs, m, rfl, ⟨-, hrest⟩ | ⟨herr, rfl, rfl⟩⟩
    · exact .inl ⟨hs, rfl⟩
    · exact ih m (Nat.lt_succ_self m) hrest
    · exact .inr ((hostStep_ok_or_faulted hs).resolve_left herr)

/-- Following a returned run for more steps shows the same return. -/
theorem hostRun_mono {n m : Nat} {s t : State} {r : CallResult} (h : hostRun n s = .returned t r) (hle : n ≤ m) :
    hostRun m s = .returned t r := by
  induction n using Nat.strong_induction_on generalizing s m with
  | _ n ih =>
    rcases hostRun_returned_cases h with ⟨hs, rfl, rfl⟩ | ⟨hs, k, rfl, hturn⟩
    · exact hostRun_halted hs
    · obtain ⟨m, rfl⟩ : ∃ j, m = j + 1 := ⟨m - 1, by omega⟩
      rw [hostRun_succ hs]
      rcases hturn with ⟨hok, hrest⟩ | ⟨herr, rfl, rfl⟩
      · rw [if_pos hok]
        exact ih k (Nat.lt_succ_self k) hrest (by omega)
      · exact if_neg herr

theorem RunReturns.unique {s t t' : State} {r r' : CallResult} (h : RunReturns s t r) (h' : RunReturns s t' r') :
    t' = t ∧ r' = r := by
  obtain ⟨n, hn⟩ := h
  obtain ⟨n', hn'⟩ := h'
  have heq := (hostRun_mono hn' (Nat.le_max_right n n')).symm.trans (hostRun_mono hn (Nat.le_max_left n n'))
  cases heq
  exact ⟨rfl, rfl⟩

theorem RunReturns.not_diverges {s t : State} {r : CallResult} (h : RunReturns s t r) : ¬ RunDiverges s := by
  obtain ⟨n, hn⟩ := h
  intro hdiv
  obtain ⟨u, hu⟩ := hdiv n
  rw [hn] at hu
  cases hu

theorem runDiverges_or_returns (s : State) : RunDiverges s ∨ ∃ t r, RunReturns s t r := by
  refine or_iff_not_imp_right.2 fun hnever n => ?_
  cases hrun : hostRun n s with
  | returned t r => exact absurd ⟨t, r, n, hrun⟩ hnever
  | stillRunning t => exact ⟨t, rfl⟩

/-! ### A jump to itself (U8) -/

/-- A Running core whose step leads back to itself is at the same state after any number of turns. -/
theorem hostRun_of_step_self {s : State} (hrun : s.status = .running) (h : step s = .next s) (n : Nat) :
    hostRun n s = .stillRunning s := by
  have hs : s.status ≠ .halted := by simp [hrun]
  induction n with
  | zero => exact hostRun_zero hs
  | succ n ih =>
    have hok : resultOf s = .ok := by simp [resultOf, hrun]
    rw [hostRun_succ hs, hostStep_next h, if_pos hok, ih]

/-- A JMP whose target is its own address changes nothing at all. -/
theorem State.FetchesOpcode.step_self_jump {s : State} (h : s.FetchesOpcode 0x0A) (har : s.ar.toNat = s.pc.toNat) :
    step s = .next s := by
  obtain ⟨-, hstep, -⟩ := jmpResult s
  rw [hstep h, har, BitVec.ofNat_toNat, BitVec.setWidth_eq]

/-- Settles O48: a bound of steps either reaches a return or does not; a reached return is one of the two kinds and is
kept by every larger bound; and at a jump to itself every bound ends where it began. -/
theorem runHasThreeOutcomes : Obligations.RunHasThreeOutcomes := by
  refine ⟨runDiverges_or_returns, fun s t r h => ?_, fun s t t' r r' h => ⟨h.not_diverges, h.unique⟩,
    fun s hfetch har n => ?_⟩
  · obtain ⟨n, hn⟩ := h
    exact hostRun_returned_halted_or_faulted hn
  · have ⟨hrun, _⟩ := hfetch
    exact ⟨s, hostRun_of_step_self hrun (hfetch.step_self_jump har) n⟩

end Sys2Proof.Machine
